-- ==== Sys2Proof/Word.lean ====
section
/-! DEFINITION. Sys2Proof/Word.lean: the word types of the ports (10_state rules R24 to R27): bytes, the 12-bit code, and
a floating-point datum of FLEN bits, FLEN being 32 or 64 (00_scope rule R13). What is computed from them stands in
Decode.lean and under Machine/. -/

namespace Sys2Proof

/-- A byte: the command byte (R24) and each byte of a frame (R25). -/
abbrev Byte := BitVec 8

/-- The ADC code, exactly 12 bits wide, so a code above 4095 cannot be presented (R26). -/
abbrev Code := BitVec 12

/-- An IEEE 754 binary interchange format by its field widths (R27): sign, `expBits`, `fracBits`. -/
structure FpFormat where
  expBits : Nat
  fracBits : Nat
  deriving DecidableEq, Repr

/-- FLEN = 32 (R13): 8 exponent bits, 23 fraction bits (R27). -/
def FpFormat.binary32 : FpFormat := ⟨8, 23⟩

/-- FLEN = 64 (R13): 11 exponent bits, 52 fraction bits (R27). -/
def FpFormat.binary64 : FpFormat := ⟨11, 52⟩

/-- One datum of FLEN bits on the `vref` or `volt` port (R27). The constructor IS the parameter FLEN of R13. -/
inductive Fp where
  | b32 (bits : BitVec 32)
  | b64 (bits : BitVec 64)
  deriving DecidableEq, Repr

/-- The format of a datum. -/
def Fp.format : Fp → FpFormat
  | .b32 _ => .binary32
  | .b64 _ => .binary64

/-- The bit pattern of a datum, as a number. -/
def Fp.pattern : Fp → Nat
  | .b32 v => v.toNat
  | .b64 v => v.toNat

/-- The number of bits below the sign bit: FLEN - 1. -/
def FpFormat.magBits (f : FpFormat) : Nat := f.expBits + f.fracBits

end Sys2Proof
end

