-- ==== Sys2Proof/Config.lean ====
section
/-! DEFINITION. Sys2Proof/Config.lean: the constants the spec fixes (00_scope rules R9 to R11, R16), the open
parameters with their defaults (R12, R13, R15; 20_memory rule R41), and the free values (42_conversion_engine rule R114,
43_sampling_session rule R144). -/

namespace Sys2Proof

/-- The channel table CHSEL: command-byte patterns by channel (R12, R63), held as a table (R186). Its eight entries are
NCHAN (R9). -/
structure ChannelTable where
  entries : Vector Byte 8
  deriving DecidableEq, Repr

/-- `CHSEL[n]`. -/
def ChannelTable.sel (t : ChannelTable) (n : Fin 8) : Byte := t.entries[n]

/-- The open parameters of the spec. They stand in State so that a claim ranges over all of them; no step writes them
(DESIGN CHOICE, safe, log 1). FLEN is not here: it is the constructor of an `Fp` (log 2). -/
structure Params where
  /-- CHSEL (R12). -/
  chsel : ChannelTable
  /-- CHANW, the width of the `chan` port (R15). -/
  chanw : Nat
  /-- busPath, an opaque argument of OPEN (R41). -/
  busPath : List Byte
  deriving DecidableEq, Repr

/-- The four error kinds, a closed enumeration without numbers (60_exceptions rule R160). -/
inductive ErrorKind where
  | busOpenFailed
  | busBindFailed
  | writeFailed
  | readFailed
  deriving DecidableEq, Repr

namespace Config

/-- The default of CHSEL (R12, R82). PRESUMED: the spec itself takes the values from general knowledge (GK1); unsafe for
a claim about a concrete command byte (log 1). -/
def chselDefault : ChannelTable := ⟨#v[0x80, 0xC0, 0x90, 0xD0, 0xA0, 0xE0, 0xB0, 0xF0]⟩

/-- The parameters a reset machine has: CHSEL and CHANW at the spec's defaults (R12, R15); the spec gives busPath no
value, so the empty path stands for it (DESIGN CHOICE, unsafe, log 1). -/
def paramsDefault : Params := { chsel := chselDefault, chanw := 8, busPath := [] }

/-- PEER, an opaque number handed to `bind` (R10). -/
def peer : Nat := 0x28

/-- VREF = 4.096 in binary32 (R11). -/
def vref32 : Fp := .b32 0x4083126F

/-- VREF = 4.096 in binary64 (R11). -/
def vref64 : Fp := .b64 0x4010624DD2F1A9FC

/-- REPEAT_SWEEP (R16). -/
def repeatSweep : Nat := 1

/-- FREE VALUE: the bits from which the sign and payload of the n-th NaN result are drawn (R114: "not specified"). No body
gives it a value, so no claim can rest on one (log 12). -/
opaque freeNan : Nat → BitVec 64

/-- FREE VALUE: from it comes the exit code of a failed run, "some non-zero number which the source does not fix" (R144).
The spec leaves open whether the number differs with the error kind; this value may (DESIGN CHOICE, safe, log 13). -/
opaque freeExit : ErrorKind → Nat → Nat

end Config

end Sys2Proof
end

