-- ==== Sys2Proof/Syntax.lean ====
section
/-! DEFINITION. Sys2Proof/Syntax.lean: the four word formats (30_encoding rules R60, R61, R67 to R69), and the
instructions: one constructor per row of spec/opcode_table.json (R75). -/

namespace Sys2Proof

/-- PolarityMode (R23). -/
inductive PolarityMode where
  | unipolar
  | bipolar
  deriving DecidableEq, Repr

/-- The one-bit coding of a mode on a port: 1 is Unipolar, 0 is Bipolar (R23). -/
def PolarityMode.bit : PolarityMode → BitVec 1
  | .unipolar => 1
  | .bipolar => 0

/-- The mode a port's bit stands for (R23); a one-bit port has no third value. -/
def PolarityMode.ofBit (b : BitVec 1) : PolarityMode := if b = 1 then .unipolar else .bipolar

/-- The formats of R60. Each travels on its own port, so no word can be mistaken for one of another format. -/
inductive Format where
  | cmd8
  | frame16
  | code12u
  | code12b
  deriving DecidableEq, Repr

/-- The width of a format (R60). -/
def Format.width : Format → Nat
  | .cmd8 => 8
  | .frame16 => 16
  | .code12u => 12
  | .code12b => 12

/-- A bit-encoded word on the port that carries it (R60). Which of the two code formats it is, the mode beside the code
says, no bit of the code (R72). -/
inductive PortWord where
  | cmd8 (w : BitVec 8)
  | frame16 (w : BitVec 16)
  | code12u (w : BitVec 12)
  | code12b (w : BitVec 12)
  deriving DecidableEq, Repr

/-- The format of a word. -/
def PortWord.format : PortWord → Format
  | .cmd8 _ => .cmd8
  | .frame16 _ => .frame16
  | .code12u _ => .code12u
  | .code12b _ => .code12b

/-- The bits of a word as a number. -/
def PortWord.toNat : PortWord → Nat
  | .cmd8 w => w.toNat
  | .frame16 w => w.toNat
  | .code12u w => w.toNat
  | .code12b w => w.toNat

/-- The instructions: the rows of spec/opcode_table.json. Every operand has exactly the width its field has, so every
term is an instruction. -/
inductive Instr where
  /-- CH0 (R83): command word for channel 0. -/
  | ch0 (uni : BitVec 1)
  /-- CH1 (R84). -/
  | ch1 (uni : BitVec 1)
  /-- CH2 (R85). -/
  | ch2 (uni : BitVec 1)
  /-- CH3 (R86). -/
  | ch3 (uni : BitVec 1)
  /-- CH4 (R87). -/
  | ch4 (uni : BitVec 1)
  /-- CH5 (R88). -/
  | ch5 (uni : BitVec 1)
  /-- CH6 (R89). -/
  | ch6 (uni : BitVec 1)
  /-- CH7 (R90). -/
  | ch7 (uni : BitVec 1)
  /-- EXTRACT (R100): the frame, first byte received first. -/
  | extract (b0 b1 : Byte)
  /-- TOVOLT.UNI (R104): the code read as CODE12U. -/
  | tovoltUni (u : Code)
  /-- TOVOLT.BIP (R107): the code read as CODE12B, sign bit and magnitude. -/
  | tovoltBip (s : BitVec 1) (mag : BitVec 11)
  deriving DecidableEq, Repr

end Sys2Proof
end

