-- ==== Sys2Proof/WellFormed.lean ====
section
/-! DEFINITION. Sys2Proof/WellFormed.lean: the checks that types alone do not make: the constraints of 30_encoding rule R63
on a channel table, of 00_scope rule R15 on CHANW, and that a word given as a number fits its format (10_state rule R26).
A term of `Instr` needs no check: each operand has exactly its field's width. -/

namespace Sys2Proof

/-- A channel pattern is a high-nibble pattern: `CHSEL[n][3:0] = 0` for every `n` (R63). -/
abbrev ChannelTable.LowNibbleClear (t : ChannelTable) : Prop := ∀ n : Fin 8, t.sel n &&& 0x0F#8 = 0#8

/-- The eight entries are pairwise distinct (R63). -/
abbrev ChannelTable.Distinct (t : ChannelTable) : Prop := ∀ m n : Fin 8, t.sel m = t.sel n → m = n

/-- What R63 asks of any value of CHSEL; that there are eight entries is in the type. -/
abbrev ChannelTable.Legal (t : ChannelTable) : Prop := t.LowNibbleClear ∧ t.Distinct

/-- Legal parameters: a legal table (R63) and `CHANW >= 3` (R15). -/
abbrev Params.Legal (p : Params) : Prop := p.chsel.Legal ∧ 3 ≤ p.chanw

/-- A number can stand on the port of a format only if it has no bit above the format's width (R26 for the code). -/
def Format.fits (f : Format) (w : Nat) : Bool := w < 2 ^ f.width

end Sys2Proof
end

