-- ==== Sys2Proof/Decode.lean ====
section
/-! DEFINITION. Sys2Proof/Decode.lean: the decoder of the words of R60, total, rejecting by name, and after it the encoder,
both from the layouts of 30_encoding rules R61 to R69 and the rows of R75. -/

namespace Sys2Proof

/-- Why a word is no instruction. -/
inductive DecodeError where
  /-- A byte outside the sixteen command bytes (R65, R66). Raised by the CMD8 decoder. Safe. -/
  | notACommandByte (w : Byte)
  /-- A number with a bit above the width of its format, such as a code above 4095 (R26). Safe. -/
  | wordTooWide (f : Format) (w : Nat)
  /-- A width that no format of R60 has. Safe. -/
  | noFormatOfWidth (nbits : Nat)
  deriving DecidableEq, Repr

/-- The polarity bit of a command byte, bit 3, mask 0x08 (R62). -/
def polarityBit (w : Byte) : BitVec 1 := w.extractLsb' 3 1

/-- The mask of a CMD8 row: every bit but `uni` (R65, R75). -/
def commandMask : Byte := 0xF7

/-- The word of row CH`n` (R61): the channel-select pattern OR'd with the polarity bit at bit 3. -/
def commandByte (sel : Byte) (uni : BitVec 1) : Byte := sel ||| (uni.zeroExtend 8 <<< 3)

/-- The eight CMD8 rows (R75): `w & 0xF7 = CHSEL[n]`. A byte that matches none is refused (R66). -/
def decodeCommand (t : ChannelTable) (w : Byte) : Except DecodeError Instr :=
  let u := polarityBit w
  if w &&& commandMask = t.sel 0 then .ok (.ch0 u)
  else if w &&& commandMask = t.sel 1 then .ok (.ch1 u)
  else if w &&& commandMask = t.sel 2 then .ok (.ch2 u)
  else if w &&& commandMask = t.sel 3 then .ok (.ch3 u)
  else if w &&& commandMask = t.sel 4 then .ok (.ch4 u)
  else if w &&& commandMask = t.sel 5 then .ok (.ch5 u)
  else if w &&& commandMask = t.sel 6 then .ok (.ch6 u)
  else if w &&& commandMask = t.sel 7 then .ok (.ch7 u)
  else .error (.notACommandByte w)

/-- FRAME16 (R67): the first byte received is bits 15:8. Every frame is legal. -/
def decodeFrame (w : BitVec 16) : Instr := .extract (w.extractLsb' 8 8) (w.extractLsb' 0 8)

/-- CODE12U (R68). Every code is legal. -/
def decodeUnipolar (w : BitVec 12) : Instr := .tovoltUni w

/-- CODE12B (R69): bit 11 is the sign, bits 10:0 the magnitude. Every code is legal. -/
def decodeBipolar (w : BitVec 12) : Instr := .tovoltBip (w.extractLsb' 11 1) (w.extractLsb' 0 11)

/-- The decoder: the instruction that the word on a port stands for (R60, R75). -/
def decode (t : ChannelTable) : PortWord → Except DecodeError Instr
  | .cmd8 w => decodeCommand t w
  | .frame16 w => .ok (decodeFrame w)
  | .code12u w => .ok (decodeUnipolar w)
  | .code12b w => .ok (decodeBipolar w)

/-- The encoder, from the same rows: the word of an instruction on its port. -/
def encode (t : ChannelTable) : Instr → PortWord
  | .ch0 u => .cmd8 (commandByte (t.sel 0) u)
  | .ch1 u => .cmd8 (commandByte (t.sel 1) u)
  | .ch2 u => .cmd8 (commandByte (t.sel 2) u)
  | .ch3 u => .cmd8 (commandByte (t.sel 3) u)
  | .ch4 u => .cmd8 (commandByte (t.sel 4) u)
  | .ch5 u => .cmd8 (commandByte (t.sel 5) u)
  | .ch6 u => .cmd8 (commandByte (t.sel 6) u)
  | .ch7 u => .cmd8 (commandByte (t.sel 7) u)
  | .extract b0 b1 => .frame16 (b0 ++ b1)
  | .tovoltUni u => .code12u u
  | .tovoltBip s mag => .code12b (s ++ mag)

/-- A number put on the port of a format; refused where it does not fit (R26). -/
def portWord (f : Format) (w : Nat) : Except DecodeError PortWord :=
  if f.fits w then
    match f with
    | .cmd8 => .ok (.cmd8 (BitVec.ofNat 8 w))
    | .frame16 => .ok (.frame16 (BitVec.ofNat 16 w))
    | .code12u => .ok (.code12u (BitVec.ofNat 12 w))
    | .code12b => .ok (.code12b (BitVec.ofNat 12 w))
  else .error (.wordTooWide f w)

/-- The format of a table row by its width alone. Twelve bits are two rows (CODE12U and CODE12B), told apart by the mode
beside the code and by no bit (R72); the sweep's mode, Unipolar (R16), is taken (DESIGN CHOICE, safe, log 14). -/
def formatOfWidth (nbits : Nat) : Except DecodeError Format :=
  if nbits = 8 then .ok .cmd8
  else if nbits = 12 then .ok .code12u
  else if nbits = 16 then .ok .frame16
  else .error (.noFormatOfWidth nbits)

/-- The word of a table row, numbered as spec/opcode_table.json numbers its bits. -/
def tableWord (nbits w : Nat) : Except DecodeError PortWord :=
  match formatOfWidth nbits with
  | .ok f => portWord f w
  | .error e => .error e

/-- What the decoder reads from a table word of `nbits` bits, under the default CHSEL. -/
def decodeTableWord (nbits w : Nat) : Option Instr :=
  match tableWord nbits w with
  | .ok p => (decode Config.chselDefault p).toOption
  | .error _ => none

end Sys2Proof
end

