-- ==== Sys2Proof/Machine/Float.lean ====
section
/-! DEFINITION. Sys2Proof/Machine/Float.lean: the IEEE 754 arithmetic of 42_conversion_engine rule R102: `fp`, `fdiv` and
`fmul`, each rounded once to the format in direction roundTiesToEven (00_scope rule R14), subnormals kept, nothing fused.
A finite magnitude is counted exactly, in units of the format's smallest subnormal; the format's parameters are those of
10_state rule R27 (PRESUMED in the spec itself, entry GK3; log 16). -/

namespace Sys2Proof.Machine

/-- A floating-point value as sign and magnitude field (the FLEN - 1 bits below the sign), NaNs apart: a NaN's sign and
payload are not specified (R114). -/
inductive FpVal where
  | nan
  | val (neg : Bool) (mag : Nat)
  deriving DecidableEq, Repr

/-- The magnitude field of an infinity: all exponent bits set, fraction 0. -/
def infMag (f : FpFormat) : Nat := (2 ^ f.expBits - 1) * 2 ^ f.fracBits

/-- The smallest subnormal is `2 ^ -(quantumExp f)`: 149 in binary32, 1074 in binary64. -/
def quantumExp (f : FpFormat) : Nat := 2 ^ (f.expBits - 1) + f.fracBits - 2

/-- The smallest subnormals in one unit: `2 ^ quantumExp`. -/
def unitQuanta (f : FpFormat) : Nat := 2 ^ quantumExp f

/-- The exact size of a finite magnitude field, in smallest subnormals. -/
def quanta (f : FpFormat) (mag : Nat) : Nat :=
  if mag / 2 ^ f.fracBits = 0 then mag
  else (2 ^ f.fracBits + mag % 2 ^ f.fracBits) * 2 ^ (mag / 2 ^ f.fracBits - 1)

/-- The quotient of two numbers rounded to the nearest integer, ties to even. -/
def roundDiv (n d : Nat) : Nat :=
  if 2 * (n % d) < d then n / d else if d < 2 * (n % d) then n / d + 1 else n / d + n / d % 2

/-- How many bits the integer part of `n / d` is longer than a significand: the exponent above the smallest. -/
def roundShift (f : FpFormat) (n d : Nat) : Nat := Nat.log2 (n / d) - f.fracBits

/-- `RN` (R14, R18): the magnitude field nearest to `n / d` smallest subnormals, ties to the even field; past the largest
finite value, infinity. Non-decreasing in `n`, which makes the conversion monotone (R116). -/
def roundRatio (f : FpFormat) (n d : Nat) : Nat :=
  min (roundShift f n d * 2 ^ f.fracBits + roundDiv n (d * 2 ^ roundShift f n d)) (infMag f)

/-- `fp(n)` (R18, R111): an unsigned integer converted to the format. -/
def fpOfNat (f : FpFormat) (n : Nat) : FpVal := .val false (roundRatio f (n * unitQuanta f) 1)

/-- The IEEE 754 multiplication (R102); 0 times infinity and a NaN operand give NaN (R113). -/
def fmul (f : FpFormat) : FpVal → FpVal → FpVal
  | .val s a, .val t b =>
    if (a = infMag f ∧ b = 0) ∨ (a = 0 ∧ b = infMag f) then .nan
    else if a = infMag f ∨ b = infMag f then .val (s ^^ t) (infMag f)
    else .val (s ^^ t) (roundRatio f (quanta f a * quanta f b) (unitQuanta f))
  | _, _ => .nan

/-- The IEEE 754 division (R102). The block divides by 2.0, 2047.0 and 4095.0 only (R115). -/
def fdiv (f : FpFormat) : FpVal → FpVal → FpVal
  | .val s a, .val t b =>
    if (a = infMag f ∧ b = infMag f) ∨ (a = 0 ∧ b = 0) then .nan
    else if a = infMag f ∨ b = 0 then .val (s ^^ t) (infMag f)
    else if b = infMag f then .val (s ^^ t) 0
    else .val (s ^^ t) (roundRatio f (quanta f a * unitQuanta f) (quanta f b))
  | _, _ => .nan

/-- The magnitude field of a datum. -/
def fpMag (x : Fp) : Nat := x.pattern % 2 ^ x.format.magBits

/-- The sign bit of a datum. -/
def fpNeg (x : Fp) : Bool := 2 ^ x.format.magBits ≤ x.pattern

/-- The value a datum denotes: a magnitude field above that of infinity is a NaN (R27). -/
def fpVal (x : Fp) : FpVal := if infMag x.format < fpMag x then .nan else .val (fpNeg x) (fpMag x)

/-- The datum of a sign and a magnitude field, in the format of `x`. -/
def fpPack (x : Fp) (neg : Bool) (mag : Nat) : Fp :=
  match x with
  | .b32 _ => .b32 (BitVec.ofNat 32 ((if neg then 2 ^ 31 else 0) + mag))
  | .b64 _ => .b64 (BitVec.ofNat 64 ((if neg then 2 ^ 63 else 0) + mag))

/-- The quiet NaN that free bits draw, in the format of `x` (R114): exponent all ones, the leading fraction bit set, sign
and the other fraction bits from the draw. -/
def quietNan (x : Fp) (bits : BitVec 64) : Fp :=
  fpPack x (bits.getLsbD 63)
    (infMag x.format + 2 ^ (x.format.fracBits - 1) + bits.toNat % 2 ^ (x.format.fracBits - 1))

end Sys2Proof.Machine
end

