-- ==== Sys2Proof/Machine/Operands.lean ====
section
/-! DEFINITION. Sys2Proof/Machine/Operands.lean: every place where an operand is assembled from bits (30_encoding rule R70),
and the two conversions of the CONV unit as functions of their operand ports. None sign-extends. -/

namespace Sys2Proof.Machine

/-- The value the `chan` port carries: CHANW unsigned bits (R22). -/
def chanOnPort (p : Params) (chan : Nat) : Nat := chan % 2 ^ p.chanw

/-- The table index: `chan mod 8` (R81). -/
def tableIndex (chan : Nat) : Fin 8 := ⟨chan % 8, Nat.mod_lt _ (by decide)⟩

/-- ENCODE (R91): the table entry OR'd with the polarity bit. -/
def encodeCommand (p : Params) (chan : Nat) (mode : PolarityMode) : Byte :=
  commandByte (p.chsel.sel (tableIndex (chanOnPort p chan))) mode.bit

/-- MODEOF (R92): bit 3 of a command byte; total on all 256 bytes. -/
def modeOf (cmd : Byte) : PolarityMode := .ofBit (polarityBit cmd)

/-- The frame of two received bytes, big-endian (R48). -/
def frameOf (b0 b1 : Byte) : BitVec 16 := (b0.zeroExtend 16 <<< 8) ||| b1.zeroExtend 16

/-- EXTRACT (R100): the frame shifted right by 4. -/
def extractCode (b0 b1 : Byte) : Code := (frameOf b0 b1 >>> 4).truncate 12

/-- The word on the CONV unit's `code` port: the mode beside the code chooses its reading (R72, R101). -/
def codeWord (mode : PolarityMode) (code : Code) : PortWord :=
  match mode with
  | .unipolar => .code12u code
  | .bipolar => .code12b code

/-- The sign of a bipolar code: negative exactly when bit 11 is set and the magnitude is not 0 (R106, R109). -/
def bipolarNeg (s : BitVec 1) (mag : BitVec 11) : Bool := s = 1 ∧ mag ≠ 0

/-- TOVOLT.UNI (R104): `(fp(u) / 4095.0) * vref`; for positive finite `vref` non-decreasing in `u` (R116). -/
def unipolarVolt (f : FpFormat) (u : Code) (vref : FpVal) : FpVal :=
  fmul f (fdiv f (fpOfNat f u.toNat) (fpOfNat f 4095)) vref

/-- The effective reference: `vref / 2.0` (R107). -/
def effectiveRef (f : FpFormat) (vref : FpVal) : FpVal := fdiv f vref (fpOfNat f 2)

/-- `+1.0` or `-1.0` (R106). -/
def signUnit (f : FpFormat) (neg : Bool) : FpVal :=
  match fpOfNat f 1 with
  | .val _ one => .val neg one
  | .nan => .nan

/-- TOVOLT.BIP (R107): `(sign * (fp(mag) / 2047.0)) * (vref / 2.0)`, left to right; for positive finite `vref` non-decreasing
in `mag` where `s = 0` and non-increasing where `s = 1` (R116). -/
def bipolarVolt (f : FpFormat) (s : BitVec 1) (mag : BitVec 11) (vref : FpVal) : FpVal :=
  fmul f (fmul f (signUnit f (bipolarNeg s mag)) (fdiv f (fpOfNat f mag.toNat) (fpOfNat f 2047)))
    (effectiveRef f vref)

/-- TOVOLT (R101): the mode selects the conversion and nothing else; bit 11 and bits 10:0 of a bipolar code are its sign
and magnitude (R69). -/
def convertCode (f : FpFormat) (mode : PolarityMode) (code : Code) (vref : FpVal) : FpVal :=
  match mode with
  | .unipolar => unipolarVolt f code vref
  | .bipolar => bipolarVolt f (code.extractLsb' 11 1) (code.extractLsb' 0 11) vref

/-- VREF in the format of `x` (R11). -/
def vrefLike (x : Fp) : Fp :=
  match x with
  | .b32 _ => Config.vref32
  | .b64 _ => Config.vref64

end Sys2Proof.Machine
end

