-- ==== Sys2Proof/Machine/State.lean ====
section
/-! DEFINITION. Sys2Proof/Machine/State.lean: the state of the sequence (10_state rule R33), the operands of the SAMPLE in
progress, the open parameters, the oracle's answers (20_memory rule R47) and the control location; the reasons a step can
stop; the state at the start of a run (R35). The block has no state (R20): a port's value stands in `Point.word` while it
is driven. -/

namespace Sys2Proof.Machine

/-- The bus handle (R33). -/
inductive Handle where
  | closed
  | opened
  | bound
  deriving DecidableEq, Repr

/-- The outcome of the run (R33): Running, Done(0), Failed(kind). -/
inductive Status where
  | running
  | done
  | failed (kind : ErrorKind)
  deriving DecidableEq, Repr

/-- The result of a SAMPLE (R135). -/
inductive SampleResult where
  | ok (volt : Fp)
  | err (kind : ErrorKind)
  deriving DecidableEq, Repr

/-- Who called the SAMPLE in progress: the sweep (R140), or the outside, directly (R140: "reachable only by calling
`SAMPLE` directly"). -/
inductive Caller where
  | sweep
  | direct
  deriving DecidableEq, Repr

/-- The operands of the SAMPLE in progress (R135): `chan` (an unsigned number of CHANW bits), `mode`, `repeatCount`. -/
structure SampleCall where
  caller : Caller
  chan : Nat
  mode : PolarityMode
  repeatCount : Nat
  deriving DecidableEq, Repr

/-- The five calls of the transport's interface (R41), with the arguments the sequence passes. -/
inductive BusCall where
  | openBus (busPath : List Byte)
  | bind (peer : Nat)
  | send (bytes : List Byte)
  | recv (maxBytes : Nat)
  | close
  deriving DecidableEq, Repr

/-- The transport's answer to `open` (R41). -/
inductive OpenAnswer where
  | handle
  | error
  deriving DecidableEq, Repr

/-- The transport's answer to `bind` (R41). -/
inductive BindAnswer where
  | done
  | error
  deriving DecidableEq, Repr

/-- The transport's answer to `send` (R41, R44): the count of bytes accepted, or Error. -/
inductive SendAnswer where
  | accepted (count : Nat)
  | error
  deriving DecidableEq, Repr

/-- The transport's answer to `recv` (R41, R45): a byte string of any length, or Error. -/
inductive RecvAnswer where
  | received (bytes : List Byte)
  | error
  deriving DecidableEq, Repr

/-- The oracle (R47): the answers it will give, oldest first, one queue per call. An empty queue is a call never answered
(R54). Any contents are possible (DESIGN CHOICE of the representation, safe, log 3). -/
structure Oracle where
  opens : List OpenAnswer
  binds : List BindAnswer
  sends : List SendAnswer
  recvs : List RecvAnswer
  deriving DecidableEq, Repr

/-- Which line of the pseudocode of R130 to R140 runs next (DESIGN CHOICE, safe, log 7). -/
inductive Point where
  /-- OPEN is next (R130). -/
  | openBus
  /-- BIND is next (R131). -/
  | bindPeer
  /-- The test `i <= 7` of the sweep is next (R140). -/
  | loopHead
  /-- Step 1 of SAMPLE is next: ENCODE drives the command byte (R135). -/
  | sampleEntry
  /-- A bit-encoded word is on its port (R60): it is decoded and run. -/
  | word (p : PortWord)
  /-- Step 2 of SAMPLE is next: SEND (R132). -/
  | sending
  /-- The test `k > 0` of SAMPLE is next, and RECV under it (R133, R135). -/
  | readLoop
  /-- A voltage has been computed: `k <- k - 1` is next (R135). -/
  | converted
  /-- SAMPLE has returned to its caller (R135, R165). -/
  | returned (r : SampleResult)
  /-- CLOSE is next, then the status: Done(0), or Failed of a kind (R134, R140). -/
  | closing (failure : Option ErrorKind)
  /-- CLOSE is next, called by the outside after its direct SAMPLEs (R134, R182; log 21). -/
  | releasing
  /-- The outside has closed: the handle is released, and no run has ended with a status (R134; log 21). -/
  | released
  /-- The run has ended (R144). -/
  | ended
  deriving DecidableEq, Repr

/-- A step that leaves the sequence where the spec says a model may not go on with a value. -/
inductive Fault where
  /-- SAMPLE would return, with no read made and so no voltage to return (R137; 93 entry U13 forbids an unset voltage).
  Raised by the loop of SAMPLE. No run reaches it. Safe. -/
  | noVoltage
  deriving DecidableEq, Repr

/-- Why a step is refused. -/
inductive Refusal where
  /-- An instruction with no meaning yet. No arm answers it. Safe. -/
  | notModelled (mnemonic : String)
  /-- A word that the decoder rejects, with the decoder's reason: on a port only a byte outside the sixteen command bytes
  (R66, 93 entry U10). Raised by the run of a CMD8 word and by SEND. Safe. -/
  | rejectedWord (why : DecodeError)
  /-- OPEN with the handle not closed (R130, precondition; R172). Raised by OPEN. Safe. -/
  | handleNotClosed
  /-- BIND with the handle not open (R131, precondition; R172). Raised by BIND. Safe. -/
  | handleNotOpened
  /-- SAMPLE, SEND or RECV with the handle not bound (R172), and a direct CLOSE then (log 21). Raised by the three and by
  `callSample` and `callClose`. Safe. -/
  | handleNotBound
  /-- CLOSE with no handle to release (R134; R172). Raised by CLOSE. Safe. -/
  | handleNotHeld
  /-- A direct SAMPLE or CLOSE while the sequence is not at rest (R182, R188: a driver that overlaps two SAMPLEs is outside
  the spec). Raised by `callSample` and `callClose`. Safe (log 21). -/
  | notAtRest
  deriving DecidableEq, Repr

/-- The machine: the sequence's variables (R33), its operands, the open parameters and the environment as plain data. -/
structure State where
  /-- The bus handle (R33). -/
  handle : Handle
  /-- The sweep's channel index, 0 to 8 (R33). -/
  i : Nat
  /-- The command byte of the current SAMPLE (R33). -/
  cmd : Byte
  /-- The number of reads still to do in the current SAMPLE (R33). -/
  k : Nat
  /-- The voltage of the most recent read of the current SAMPLE, or none (R33). -/
  last : Option Fp
  /-- The results reported so far, in order (R33). -/
  reports : List (Nat × Fp)
  /-- The outcome of the run (R33). -/
  status : Status
  /-- The operand port `vref` of the converter (R27, R28); its constructor is FLEN (R13). -/
  vref : Fp
  /-- The operands of the current SAMPLE (R135). -/
  call : SampleCall
  /-- The open parameters (R12, R15, R41). -/
  params : Params
  /-- The oracle's answers to come (R47). -/
  oracle : Oracle
  /-- The bus call issued and not yet answered (R54). -/
  pending : Option BusCall
  /-- Every bus call issued, in order: the model's record of the bus traffic (log 6). -/
  trace : List BusCall
  /-- How many NaN results have been drawn (R114, log 12). -/
  draws : Nat
  /-- The control location. -/
  point : Point
  deriving DecidableEq, Repr

/-- What a step answers. -/
abbrev Result := Host.Outcome State Fault Refusal

/-- The sweep's call for channel `i`: `SAMPLE(i, Unipolar, 1)` (R140, R16). -/
def sweepCall (i : Nat) : SampleCall :=
  { caller := .sweep, chan := i, mode := .unipolar, repeatCount := Config.repeatSweep }

/-- The state at the start of a run (R35, R181). R35 gives `cmd` and `k` no value: 0 stands for it (DESIGN CHOICE, unsafe,
log 9). The oracle has given no answer (log 3). -/
def State.reset : State where
  handle := .closed
  i := 0
  cmd := 0
  k := 0
  last := none
  reports := []
  status := .running
  vref := Config.vref32
  call := sweepCall 0
  params := Config.paramsDefault
  oracle := { opens := [], binds := [], sends := [], recvs := [] }
  pending := none
  trace := []
  draws := 0
  point := .openBus

end Sys2Proof.Machine
end

