-- ==== Sys2Proof/Machine/Ops.lean ====
section
/-! DEFINITION. Sys2Proof/Machine/Ops.lean: the named operations on the state: moving the control location, driving the
result ports, the bus calls (20_memory rules R41 to R45, R54), and raising an error (60_exceptions rule R165). There is no
return from an error (R167), so there is no operation for one. -/

namespace Sys2Proof.Machine

/-- The sequence goes on at `p`. -/
def State.goto (s : State) (p : Point) : State := { s with point := p }

/-- `cmd <- w` (R91). -/
def State.setCmd (s : State) (w : Byte) : State := { s with cmd := w }

/-- A value on the `volt` port as a datum (R27): a NaN is drawn (R114). -/
def voltDatum (s : State) : FpVal → Fp
  | .val neg mag => fpPack s.vref neg mag
  | .nan => quietNan s.vref (Config.freeNan s.draws)

/-- `last <- volt` (R135); a NaN uses up one draw (R114, log 12). -/
def State.takeVolt (s : State) (v : FpVal) : State :=
  { s with
    last := some (voltDatum s v)
    draws := if v = .nan then s.draws + 1 else s.draws }

/-- The handle changes (R130, R131). -/
def State.setHandle (s : State) (h : Handle) : State := { s with handle := h }

/-- `i <- 0` (R140). -/
def State.firstChannel (s : State) : State := { s with i := 0 }

/-- The sweep calls `SAMPLE(i, Unipolar, 1)` (R140). -/
def State.callChannel (s : State) : State := { s with call := sweepCall s.i }

/-- The `vref` port carries VREF (R139). -/
def State.driveVref (s : State) : State := { s with vref := vrefLike s.vref }

/-- `k <- max(repeatCount, 1)`, `last <- none` (R135, R137). -/
def State.startReads (s : State) : State := { s with k := max s.call.repeatCount 1, last := none }

/-- `k <- k - 1` (R135). -/
def State.countRead (s : State) : State := { s with k := s.k - 1 }

/-- `reports <- reports ++ [(i, volt)]`, `i <- i + 1` (R140, R143). The ended SAMPLE's `cmd`, `k` and `last` stay until the next
SAMPLE writes them (DESIGN CHOICE, unsafe, log 22). -/
def State.report (s : State) (volt : Fp) : State :=
  { s with reports := s.reports ++ [(s.i, volt)], i := s.i + 1 }

/-- A bus call is issued: it goes on the bus once, and stays pending until it is answered (R54). -/
def State.issue (s : State) (c : BusCall) : State :=
  { s with
    pending := some c
    trace := if s.pending = some c then s.trace else s.trace ++ [c] }

/-- The pending call has been answered; `o` are the oracle's answers still to come. -/
def State.answered (s : State) (o : Oracle) : State := { s with pending := none, oracle := o }

/-- `open(busPath)` (R41). Never answered, it leaves the sequence stuck: the state with the call pending (R54, log 4). -/
def callOpen (s : State) (onAnswer : OpenAnswer → State → Result) : Result :=
  let s1 := s.issue (.openBus s.params.busPath)
  match s1.oracle.opens with
  | [] => .next s1
  | a :: rest => onAnswer a (s1.answered { s1.oracle with opens := rest })

/-- `bind(handle, PEER)` (R41, R10). Stuck if never answered (R54). -/
def callBind (s : State) (onAnswer : BindAnswer → State → Result) : Result :=
  let s1 := s.issue (.bind Config.peer)
  match s1.oracle.binds with
  | [] => .next s1
  | a :: rest => onAnswer a (s1.answered { s1.oracle with binds := rest })

/-- `MemWrite(PEER, 1, w)` (R44): `send(handle, [w])`. Stuck if never answered (R54). -/
def memWrite (w : Byte) (s : State) (onAnswer : SendAnswer → State → Result) : Result :=
  let s1 := s.issue (.send [w])
  match s1.oracle.sends with
  | [] => .next s1
  | a :: rest => onAnswer a (s1.answered { s1.oracle with sends := rest })

/-- `MemRead(PEER, 2)` (R45): `recv(handle, 2)`. Stuck if never answered (R54). -/
def memRead (s : State) (onAnswer : RecvAnswer → State → Result) : Result :=
  let s1 := s.issue (.recv 2)
  match s1.oracle.recvs with
  | [] => .next s1
  | a :: rest => onAnswer a (s1.answered { s1.oracle with recvs := rest })

/-- The write has succeeded if and only if at least the one byte offered was accepted (R44). -/
def writeSucceeded : SendAnswer → Bool
  | .accepted n => 1 ≤ n
  | .error => false

/-- The read has succeeded if and only if exactly two bytes came (R45): the two, first received first. -/
def readBytes : RecvAnswer → Option (Byte × Byte)
  | .received [b0, b1] => some (b0, b1)
  | _ => none

/-- `close(h)` (R134): it cannot fail and answers nothing, so it is never pending (log 15). -/
def State.close (s : State) : State := { s with handle := .closed, trace := s.trace ++ [.close] }

/-- The voltages computed by earlier reads of the same SAMPLE are dropped (R165): `last` holds none (DEDUCED that the word
means this, unsafe, log 11). -/
def State.dropReads (s : State) : State := { s with last := none }

/-- `raise kind` (R165), the ONE operation by which a SAMPLE fails: it ends at once with `Err(kind)`, and nothing else
changes; what there is to drop, `dropReads` drops. Nothing is saved; the caller goes on. -/
def State.raise (s : State) (kind : ErrorKind) : State := { s with point := .returned (.err kind) }

/-- The run ends with a status (R144). -/
def State.finish (s : State) (outcome : Status) : State := { s with status := outcome, point := .ended }

/-- The status a run ends with once the handle is released: Done(0), or Failed of the kind (R140). -/
def finalStatus : Option ErrorKind → Status
  | none => .done
  | some kind => .failed kind

/-- The sequence is at rest, so that the outside may call SAMPLE or CLOSE directly (R140): BIND has succeeded and the sweep
has not begun its first channel (R182), or a direct SAMPLE has returned a voltage; after an error CLOSE is all that is left
(R167). No bus call is pending (DEDUCED, safe, log 21). -/
def atRest (s : State) : Bool :=
  s.pending = none &&
    match s.point with
    | .loopHead => s.i = 0
    | .returned (.ok _) => s.call.caller = .direct
    | _ => false

/-- A direct call of the outside leads to `t` where the sequence is at rest with the handle bound (R135, precondition), and
is refused elsewhere (R188). -/
def directCall (s t : State) : Result :=
  if s.handle = .bound then if atRest s then .next t else .refused .notAtRest
  else .refused .handleNotBound

end Sys2Proof.Machine
end

