-- ==== Sys2Proof/Machine/Conversion.lean ====
section
/-! DEFINITION. Sys2Proof/Machine/Conversion.lean: the meanings of EXTRACT, TOVOLT.UNI and TOVOLT.BIP (42_conversion_engine
rules R100, R104, R107). Total, no flag, no exception (R115). -/

namespace Sys2Proof.Machine

/-- EXTRACT (R100): the code of the frame goes on the `code` port of the converter, under the mode of the command byte that
was sent (43_sampling_session rule R138). -/
def execExtract (b0 b1 : Byte) (s : State) : Result :=
  .next (s.goto (.word (codeWord (modeOf s.cmd) (extractCode b0 b1))))

/-- TOVOLT.UNI (R104): `volt <- fmul(fdiv(fp(u), 4095.0), vref)`, kept as `last` (R135). -/
def execTovoltUni (u : Code) (s : State) : Result :=
  .next ((s.takeVolt (unipolarVolt s.vref.format u (fpVal s.vref))).goto .converted)

/-- TOVOLT.BIP (R107): `volt <- fmul(fmul(sign, fdiv(fp(mag), 2047.0)), fdiv(vref, 2.0))`, kept as `last` (R135). -/
def execTovoltBip (sgn : BitVec 1) (mag : BitVec 11) (s : State) : Result :=
  .next ((s.takeVolt (bipolarVolt s.vref.format sgn mag (fpVal s.vref))).goto .converted)

end Sys2Proof.Machine
end

