-- ==== Sys2Proof/Machine/Encoder.lean ====
section
/-! DEFINITION. Sys2Proof/Machine/Encoder.lean: the meanings of the eight command words (41_command_encoder rules R83 to
R90). Each drives the `cmd` port with its byte, `cmd <- CHSEL[n] | (uni << 3)`; no flag, no exception. The sequence goes on
with step 2 of SAMPLE, SEND (43_sampling_session rule R135). -/

namespace Sys2Proof.Machine

/-- What the eight words share: `cmd <- CHSEL[n] | (uni << 3)`, and SEND is next. -/
def driveCommand (n : Fin 8) (uni : BitVec 1) (s : State) : Result :=
  .next ((s.setCmd (commandByte (s.params.chsel.sel n) uni)).goto .sending)

/-- CH0 (R83). -/
def execCh0 (uni : BitVec 1) (s : State) : Result := driveCommand 0 uni s

/-- CH1 (R84). -/
def execCh1 (uni : BitVec 1) (s : State) : Result := driveCommand 1 uni s

/-- CH2 (R85). -/
def execCh2 (uni : BitVec 1) (s : State) : Result := driveCommand 2 uni s

/-- CH3 (R86). -/
def execCh3 (uni : BitVec 1) (s : State) : Result := driveCommand 3 uni s

/-- CH4 (R87). -/
def execCh4 (uni : BitVec 1) (s : State) : Result := driveCommand 4 uni s

/-- CH5 (R88). -/
def execCh5 (uni : BitVec 1) (s : State) : Result := driveCommand 5 uni s

/-- CH6 (R89). -/
def execCh6 (uni : BitVec 1) (s : State) : Result := driveCommand 6 uni s

/-- CH7 (R90). -/
def execCh7 (uni : BitVec 1) (s : State) : Result := driveCommand 7 uni s

end Sys2Proof.Machine
end

