-- ==== Sys2Proof/Machine/Dispatch.lean ====
section
/-! DEFINITION. Sys2Proof/Machine/Dispatch.lean: one arm per instruction, each one call of its meaning. -/

namespace Sys2Proof.Machine

def exec (i : Instr) (s : State) : Host.Outcome State Fault Refusal :=
  match i with
  | .ch0 uni => Sys2Proof.Machine.execCh0 uni s
  | .ch1 uni => Sys2Proof.Machine.execCh1 uni s
  | .ch2 uni => Sys2Proof.Machine.execCh2 uni s
  | .ch3 uni => Sys2Proof.Machine.execCh3 uni s
  | .ch4 uni => Sys2Proof.Machine.execCh4 uni s
  | .ch5 uni => Sys2Proof.Machine.execCh5 uni s
  | .ch6 uni => Sys2Proof.Machine.execCh6 uni s
  | .ch7 uni => Sys2Proof.Machine.execCh7 uni s
  | .extract b0 b1 => Sys2Proof.Machine.execExtract b0 b1 s
  | .tovoltUni u => Sys2Proof.Machine.execTovoltUni u s
  | .tovoltBip sgn mag => Sys2Proof.Machine.execTovoltBip sgn mag s

end Sys2Proof.Machine
end

