-- ==== Sys2Proof/Machine/Flags.lean ====
section
/-! DEFINITION. Sys2Proof/Machine/Flags.lean: there are no flags, condition codes or floating-point status bits (10_state
rule R30, 42_conversion_engine rule R115), so there is nothing to compute here but the one outcome the system reports, its
exit code (43_sampling_session rule R144). -/

namespace Sys2Proof.Machine

/-- The exit code (R144): none while the run goes on, 0 on full success, otherwise some non-zero number that the spec does
not fix. Whether it differs with the error kind, or between two failures of one kind, the spec leaves open: the model
takes it from a free value of the kind and of the count of NaN draws (DESIGN CHOICE, log 13). -/
def exitCode (s : State) : Option Nat :=
  match s.status with
  | .running => none
  | .done => some 0
  | .failed kind => some (Config.freeExit kind s.draws + 1)

end Sys2Proof.Machine
end

