-- ==== Sys2Proof/Machine/Session.lean ====
section
/-! DEFINITION. Sys2Proof/Machine/Session.lean: the steps of the sampling sequence that no bit-encoded word selects: OPEN,
BIND, the loop of SWEEP, the entry of SAMPLE, SEND, RECV, the loop of SAMPLE, its return, and CLOSE (43_sampling_session
rules R130 to R144). Each is one definition over the state at its control location. -/

namespace Sys2Proof.Machine

/-- OPEN (R130). An Error ends the run with nothing to close (R161). -/
def stepOpen (s : State) : Result :=
  if s.handle = .closed then
    callOpen s fun a t =>
      match a with
      | .handle => .next ((t.setHandle .opened).goto .bindPeer)
      | .error => .next (t.finish (.failed .busOpenFailed))
  else .refused .handleNotClosed

/-- BIND (R131), then `i <- 0` (R140). An Error goes on with CLOSE and ends the run (R162). -/
def stepBind (s : State) : Result :=
  if s.handle = .opened then
    callBind s fun a t =>
      match a with
      | .done => .next ((t.setHandle .bound).firstChannel.goto .loopHead)
      | .error => .next (t.goto (.closing (some .busBindFailed)))
  else .refused .handleNotOpened

/-- The head of the sweep's loop (R140): while `i <= 7`, `SAMPLE(i, Unipolar, 1)`; then CLOSE and Done(0). -/
def stepLoopHead (s : State) : Result :=
  if s.i ≤ 7 then .next (s.callChannel.goto .sampleEntry)
  else .next (s.goto (.closing none))

/-- The entry of SAMPLE (R135, precondition `handle = Bound`): ENCODE drives the command word of `chan` and `mode` (step 1),
and the converter's `vref` port carries VREF (R139). -/
def stepSampleEntry (s : State) : Result :=
  if s.handle = .bound then
    .next (s.driveVref.goto (.word (.cmd8 (encodeCommand s.params s.call.chan s.call.mode))))
  else .refused .handleNotBound

/-- SEND (R132): the command byte is written, and the reads begin (R135); a byte outside the sixteen is refused (R66). A
failed write raises before any read of this SAMPLE and before `last <- none` (R135), so there is nothing to drop: `last`
keeps what it held (log 11). -/
def stepSend (s : State) : Result :=
  if s.handle = .bound then
    match decodeCommand s.params.chsel s.cmd with
    | .error e => .refused (.rejectedWord e)
    | .ok _ =>
      memWrite s.cmd s fun a t =>
        if writeSucceeded a then .next (t.startReads.goto .readLoop) else .next (t.raise .writeFailed)
  else .refused .handleNotBound

/-- RECV (R133): the frame of the two bytes goes on the port of EXTRACT; any other answer raises ReadFailed,
and the voltages of this SAMPLE's earlier reads are dropped (R165). -/
def recvFrame (s : State) : Result :=
  if s.handle = .bound then
    memRead s fun a t =>
      match readBytes a with
      | some (b0, b1) => .next (t.goto (.word (.frame16 (frameOf b0 b1))))
      | none => .next (t.dropReads.raise .readFailed)
  else .refused .handleNotBound

/-- The head of SAMPLE's loop (R135): while `k > 0`, RECV; then `Ok(last)` (R136). With no voltage computed there is
nothing to return, and no value is made up (93 entry U13, log 18). -/
def stepReadLoop (s : State) : Result :=
  if 0 < s.k then recvFrame s
  else
    match s.last with
    | some v => .next (s.goto (.returned (.ok v)))
    | none => .fault .noVoltage

/-- The foot of SAMPLE's loop: `k <- k - 1` (R135). -/
def stepConverted (s : State) : Result := .next (s.countRead.goto .readLoop)

/-- SAMPLE has returned. An Err goes on with CLOSE, in a sweep (R140, R142) and after a direct call (R182: "after the first
failure, `CLOSE`"; R188; the status a direct failure ends with is DEDUCED, log 21). In a sweep an Ok is reported and the
next channel follows (R143); `cmd`, `k` and `last` keep what the ended SAMPLE left in them, though no value outlives its SAMPLE
(R21): R135 clears none of them at the return (DESIGN CHOICE, unsafe, log 22). A direct SAMPLE reports nothing: its caller has the result, and the sequence rests until the
outside calls again (logs 5, 21). -/
def stepReturned (r : SampleResult) (s : State) : Result :=
  match r, s.call.caller with
  | .err kind, _ => .next (s.goto (.closing (some kind)))
  | .ok v, .sweep => .next ((s.report v).goto .loopHead)
  | .ok _, .direct => .next s

/-- CLOSE, then the run ends (R134, R140, R144). -/
def stepClose (failure : Option ErrorKind) (s : State) : Result :=
  if s.handle = .closed then .refused .handleNotHeld
  else .next (s.close.finish (finalStatus failure))

/-- CLOSE called by the outside after its last direct SAMPLE (R134, R182): the handle is released. The spec gives `status`
no value here and CLOSE writes none, so it stays as it is (log 21). -/
def stepRelease (s : State) : Result :=
  if s.handle = .closed then .refused .handleNotHeld
  else .next (s.close.goto .released)

/-- A run that has ended, or a handle that the outside has released, has no further step: the state stays (R144, log 5). -/
def stepEnded (s : State) : Result := .next s

/-- The outside calls `SAMPLE(chan, mode, repeatCount)` directly (R135, R140): an input to the machine, not a step. Refused
where it would overlap another SAMPLE (R188). -/
def callSample (s : State) (chan : Nat) (mode : PolarityMode) (repeatCount : Nat) : Result :=
  directCall s
    { s with
      call := { caller := .direct, chan := chan, mode := mode, repeatCount := repeatCount }
      point := .sampleEntry }

/-- The outside calls `CLOSE` after its last direct SAMPLE (R134, R182): an input to the machine, not a step. -/
def callClose (s : State) : Result := directCall s (s.goto .releasing)

end Sys2Proof.Machine
end

