-- ==== Sys2Proof/Machine/Step.lean ====
section
/-! DEFINITION. Sys2Proof/Machine/Step.lean: one step of the sequence, the single agent (00_scope rule R4): the line of the
pseudocode that the control location names; where a bit-encoded word is on its port, the word is decoded and its
instruction run. -/

namespace Sys2Proof.Machine

/-- The word on a port is decoded and run; a byte that is no command byte is refused (R66). -/
def runWord (w : PortWord) (s : State) : Host.Outcome State Fault Refusal :=
  match decode s.params.chsel w with
  | .ok i => exec i s
  | .error e => .refused (.rejectedWord e)

/-- One step of the sequence (R4, R140). -/
def step (s : State) : Host.Outcome State Fault Refusal :=
  match s.point with
  | .openBus => stepOpen s
  | .bindPeer => stepBind s
  | .loopHead => stepLoopHead s
  | .sampleEntry => stepSampleEntry s
  | .word w => runWord w s
  | .sending => stepSend s
  | .readLoop => stepReadLoop s
  | .converted => stepConverted s
  | .returned r => stepReturned r s
  | .closing failure => stepClose failure s
  | .releasing => stepRelease s
  | .released => stepEnded s
  | .ended => stepEnded s

/-- `s` with a table word on its port, so that the next step decodes and runs it (log 8). A word that cannot stand on a
port (R26) changes nothing. -/
def State.withFetchWord (s : State) (nbits w : Nat) : State :=
  match tableWord nbits w with
  | .ok p => s.goto (.word p)
  | .error _ => s

end Sys2Proof.Machine
end

