-- ==== Sys2Proof/Safety.lean ====
section
/-! DEFINITION. Sys2Proof/Safety.lean: the terms of the claims: when the sequence waits for the bus (20_memory rule R54),
when it is over (43_sampling_session rule R144), what holds between the variables at each control location
(10_state rule R33 with R130 to R144), and the variant of its loops (R141). -/

namespace Sys2Proof.Machine

/-- The bus call that the sequence makes at its control location, if it makes one (R130 to R133). CLOSE is not here: it
answers nothing and is never waited for (log 15). -/
def nextCall (s : State) : Option BusCall :=
  match s.point with
  | .openBus => some (.openBus s.params.busPath)
  | .bindPeer => some (.bind Config.peer)
  | .sending => some (.send [s.cmd])
  | .readLoop => if 0 < s.k then some (.recv 2) else none
  | _ => none

/-- The oracle has an answer to the call the sequence makes at its control location, or it makes none. -/
def oracleAnswers (s : State) : Prop :=
  match s.point with
  | .openBus => s.oracle.opens ≠ []
  | .bindPeer => s.oracle.binds ≠ []
  | .sending => s.oracle.sends ≠ []
  | .readLoop => 0 < s.k → s.oracle.recvs ≠ []
  | _ => True

/-- Nothing is left to do: the run has ended (R144), the outside has closed (R182), or a direct SAMPLE has returned a voltage
(R135) and the outside has not called again. -/
def isOver (s : State) : Prop :=
  match s.point with
  | .ended => True
  | .released => True
  | .returned (.ok _) => s.call.caller = .direct
  | _ => False

/-- The command byte is that of the SAMPLE in progress (R183, R184). -/
def commandCurrent (s : State) : Prop := s.cmd = encodeCommand s.params s.call.chan s.call.mode

/-- Inside a SAMPLE: the handle is bound (R135), the run goes on, and a sweep's call is `SAMPLE(i, Unipolar, 1)` with
`i <= 7` (R140). -/
def inSample (s : State) : Prop :=
  s.handle = .bound ∧ s.status = .running ∧ (s.call.caller = .sweep → s.call = sweepCall s.i ∧ s.i ≤ 7)

/-- Inside the loop of a SAMPLE: the command byte is current, and no more reads are to do than the call asks for (R135,
R137). -/
def inReads (s : State) : Prop :=
  inSample s ∧ commandCurrent s ∧ s.k ≤ max s.call.repeatCount 1

/-- What holds between the variables at each control location. -/
def pointOk (s : State) : Prop :=
  match s.point with
  | .openBus => s.handle = .closed ∧ s.status = .running ∧ s.i = 0
  | .bindPeer => s.handle = .opened ∧ s.status = .running ∧ s.i = 0
  | .loopHead => s.handle = .bound ∧ s.status = .running
  | .sampleEntry => inSample s
  | .word (.cmd8 w) => inSample s ∧ w = encodeCommand s.params s.call.chan s.call.mode
  | .word (.frame16 _) => inReads s ∧ 1 ≤ s.k
  | .word (.code12u _) => inReads s ∧ 1 ≤ s.k ∧ modeOf s.cmd = .unipolar
  | .word (.code12b _) => inReads s ∧ 1 ≤ s.k ∧ modeOf s.cmd = .bipolar
  | .sending => inSample s ∧ commandCurrent s
  | .readLoop => inReads s ∧ (s.k = 0 → s.last ≠ none)
  | .converted => inReads s ∧ 1 ≤ s.k ∧ s.last ≠ none
  | .returned (.ok v) => inSample s ∧ s.last = some v
  | .returned (.err kind) => inSample s ∧ (kind = .writeFailed ∨ kind = .readFailed ∧ s.last = none)
  | .closing none => s.handle ≠ .closed ∧ s.status = .running ∧ s.i = 8
  | .closing (some _) => s.handle ≠ .closed ∧ s.status = .running
  | .releasing => s.handle ≠ .closed ∧ s.status = .running
  | .released => s.handle = .closed ∧ s.status = .running
  | .ended => s.handle = .closed ∧ s.status ≠ .running ∧ (s.status = .done → s.i = 8)

/-- The invariant of the sequence: the parameters are legal (R63, R15); the channel index is 0 to 8 (R33); each channel
below it has been reported once, in order (R143); the converter has VREF (R139); every voltage has the format of `vref`
(R13); no call but the one at the control location is pending (R50); and the variables fit the control location. -/
def sequenceInv (s : State) : Prop :=
  s.params.Legal ∧ s.i ≤ 8 ∧ s.reports.map Prod.fst = List.range s.i ∧ s.vref = vrefLike s.vref ∧
    (∀ r ∈ s.reports, r.2.format = s.vref.format) ∧ (∀ v, s.last = some v → v.format = s.vref.format) ∧
    (s.pending = none ∨ s.pending = nextCall s) ∧ pointOk s

/-- The variant of the loops (R141): it counts down `8 - i` and `k`, and the lines in between. -/
def stepsLeft (s : State) : Nat :=
  let later := 10 * (7 - s.i) + 3
  let reads := 4 * max s.call.repeatCount 1
  match s.point with
  | .openBus => 85
  | .bindPeer => 84
  | .loopHead => 10 * (8 - s.i) + 3
  | .sampleEntry => later + reads + 5
  | .word (.cmd8 _) => later + reads + 4
  | .sending => later + reads + 3
  | .readLoop => later + 4 * s.k + 2
  | .word (.frame16 _) => later + 4 * s.k + 1
  | .word (.code12u _) => later + 4 * s.k
  | .word (.code12b _) => later + 4 * s.k
  | .converted => later + 4 * s.k - 1
  | .returned _ => later + 1
  | .closing _ => 2
  | .releasing => 1
  | .released => 0
  | .ended => 0

/-- A datum is finite: its magnitude field is below that of infinity (R27). -/
abbrev isFinite (x : Fp) : Prop := fpMag x < infMag x.format

/-- Positive and finite, the case of R105 and R110. -/
abbrev isPositiveFinite (x : Fp) : Prop := fpNeg x = false ∧ 0 < fpMag x ∧ isFinite x

/-- A quiet NaN: the exponent all ones and the leading fraction bit set (R114). -/
abbrev isQuietNan (x : Fp) : Prop := infMag x.format + 2 ^ (x.format.fracBits - 1) ≤ fpMag x

/-- The same datum with its sign bit flipped. -/
def flipSign (x : Fp) : Fp := fpPack x (!fpNeg x) (fpMag x)

/-- The exact value of a finite datum, in smallest subnormals. -/
def fpExact (x : Fp) : Int := if fpNeg x then -(quanta x.format (fpMag x) : Int) else quanta x.format (fpMag x)

/-- How far a magnitude field is from the exact value `n / d`, both in smallest subnormals, times `d`. -/
def roundingError (f : FpFormat) (mag n d : Nat) : Nat := ((quanta f mag : Int) * d - n).natAbs

/-- `mag` is `n / d` smallest subnormals rounded to nearest, ties to even (R14): no finite field is nearer, a tie goes to
the even field, and from halfway past the largest finite value on the result is infinity. -/
def roundsNearestEven (f : FpFormat) (mag n d : Nat) : Prop :=
  if 2 * n < (quanta f (infMag f - 1) + quanta f (infMag f)) * d then
    mag < infMag f ∧ ∀ p, p < infMag f → roundingError f mag n d ≤ roundingError f p n d ∧
      (roundingError f p n d = roundingError f mag n d → p ≠ mag → mag % 2 = 0)
  else mag = infMag f

/-- The conversion that `mode` selects for a code (R101). -/
def converterInstr (mode : PolarityMode) (code : Code) : Instr :=
  match mode with
  | .unipolar => decodeUnipolar code
  | .bipolar => decodeBipolar code

/-- The voltage of a frame of two bytes received under `mode`, with the reference `VREF` in the format of `x` (R135). -/
def frameVolt (x : Fp) (mode : PolarityMode) (frame : Byte × Byte) : FpVal :=
  convertCode x.format mode (extractCode frame.1 frame.2) (fpVal (vrefLike x))

/-- The answer of a successful read (R45). -/
def goodRead (frame : Byte × Byte) : RecvAnswer := .received [frame.1, frame.2]

/-- The bus calls of one successful SAMPLE of the sweep on channel `c` (R135, R140). -/
def channelCalls (p : Params) (c : Nat) : List BusCall :=
  [.send [encodeCommand p c .unipolar], .recv 2]

/-- Ready for a run (R35): the handle closed, nothing reported, OPEN next. -/
def atStart (s : State) : Prop :=
  s.point = .openBus ∧ s.handle = .closed ∧ s.status = .running ∧ s.reports = [] ∧ s.pending = none

end Sys2Proof.Machine
end

