-- ==== Sys2Proof/Certificates/Slice0/Obligations.lean ====
section
/-! DEFINITION. Sys2Proof/Certificates/Slice0/Obligations.lean: the statements for the provers. A rule number names a rule of
spec/; a statement's docstring says what it formalises and what of it is the model's own choice. -/

open Sys2Proof Sys2Proof.Machine

/-! ### Words, decoder and encoder -/

/-- Decoding the word of an instruction gives the instruction back, for every instruction with every operand, under every
legal channel table (R61, R63, R67 to R69, R71). -/
def Obligations.DecodeOfEncodeIsTheInstruction : Prop :=
  ∀ t : ChannelTable, t.Legal → ∀ i : Instr, decode t (encode t i) = .ok i

/-- Each word has one meaning: a word decodes to an instruction exactly when it is that instruction's word (R65, R71, R72). -/
def Obligations.EachWordHasOneMeaning : Prop :=
  ∀ t : ChannelTable, t.Legal → ∀ (w : PortWord) (i : Instr), decode t w = .ok i ↔ encode t i = w

/-- ENCODE produces exactly sixteen values, `CHSEL[n] | 0x08` and `CHSEL[n]`; with the default table those of R65. -/
def Obligations.CommandBytesAreTheSixteen : Prop :=
  (∀ p : Params, p.Legal →
    (∀ w : Byte, (∃ (chan : Nat) (mode : PolarityMode), chan < 2 ^ p.chanw ∧ encodeCommand p chan mode = w) ↔
      ∃ n : Fin 8, w = p.chsel.sel n ||| 0x08#8 ∨ w = p.chsel.sel n) ∧
    ((List.finRange 8).flatMap fun n => [p.chsel.sel n ||| 0x08#8, p.chsel.sel n]).Nodup) ∧
  (List.range 8).map (fun c => encodeCommand Config.paramsDefault c .unipolar) =
    [0x88#8, 0xC8#8, 0x98#8, 0xD8#8, 0xA8#8, 0xE8#8, 0xB8#8, 0xF8#8] ∧
  (List.range 8).map (fun c => encodeCommand Config.paramsDefault c .bipolar) =
    [0x80#8, 0xC0#8, 0x90#8, 0xD0#8, 0xA0#8, 0xE0#8, 0xB0#8, 0xF0#8]

/-- A byte outside the sixteen is no command word, and a SEND of it is refused by name (R66). -/
def Obligations.OtherBytesAreRefused : Prop :=
  ∀ (s : State) (w : Byte), s.params.Legal →
    (∀ n : Fin 8, w ≠ s.params.chsel.sel n ∧ w ≠ s.params.chsel.sel n ||| 0x08#8) →
    decode s.params.chsel (.cmd8 w) = .error (.notACommandByte w) ∧
    (s.point = .sending → s.handle = .bound → s.cmd = w → step s = .refused (.rejectedWord (.notACommandByte w)))

/-- A few words written out from their rows decode to what they stand for (R61, R67 to R69); the nibbles of CH5 and CH2 are
the default table's (log 1). -/
def Obligations.WordsWrittenOutDecode : Prop :=
  decode Config.chselDefault (.cmd8 0b11101000#8) = .ok (.ch5 1) ∧
  decode Config.chselDefault (.cmd8 0b10010000#8) = .ok (.ch2 0) ∧
  decode Config.chselDefault (.cmd8 0b10000100#8) = .error (.notACommandByte 0x84) ∧
  decode Config.chselDefault (.frame16 0b1010101111001101#16) = .ok (.extract 0xAB 0xCD) ∧
  decode Config.chselDefault (.code12u 0b101010111100#12) = .ok (.tovoltUni 0xABC) ∧
  decode Config.chselDefault (.code12b 0b101010111100#12) = .ok (.tovoltBip 1 0x2BC)

/-! ### The command encoder -/

/-- The channel is reduced modulo 8 before the lookup, so callers passing 8 or more wrap (R81). -/
def Obligations.EncodeReducesChannelModuloEight : Prop :=
  ∀ (p : Params) (chan : Nat) (mode : PolarityMode), p.Legal →
    (chan < 2 ^ p.chanw →
      encodeCommand p chan mode = p.chsel.sel ⟨chan % 8, Nat.mod_lt _ (by decide)⟩ ||| (mode.bit.zeroExtend 8 <<< 3)) ∧
    (chan + 8 < 2 ^ p.chanw → encodeCommand p chan mode = encodeCommand p (chan + 8) mode)

/-- The source's properties of the encoder (R93), for every legal table: the high nibble is the table's, bit 3 the mode,
bits 2 to 0 are 0; Unipolar is Bipolar with 0x08; channel 8 is channel 0 where the port is wide enough; and the result
determines `chan mod 8` and the mode. -/
def Obligations.EncodeFieldsAndInjectivity : Prop :=
  ∀ p : Params, p.Legal → ∀ (chan chan' : Nat) (mode mode' : PolarityMode),
    chan < 2 ^ p.chanw → chan' < 2 ^ p.chanw →
    (encodeCommand p chan mode).extractLsb' 4 4 =
      (p.chsel.sel ⟨chan % 8, Nat.mod_lt _ (by decide)⟩).extractLsb' 4 4 ∧
    (encodeCommand p chan mode).extractLsb' 3 1 = mode.bit ∧
    (encodeCommand p chan mode).extractLsb' 0 3 = 0#3 ∧
    encodeCommand p chan .unipolar = encodeCommand p chan .bipolar ||| 0x08#8 ∧
    (8 < 2 ^ p.chanw → encodeCommand p 8 mode = encodeCommand p 0 mode) ∧
    (encodeCommand p chan mode = encodeCommand p chan' mode' ↔ chan % 8 = chan' % 8 ∧ mode = mode')

/-- MODEOF reads bit 3 of any byte and ignores the others, and gives back the mode of every command byte ENCODE produces
(R92). -/
def Obligations.ModeOfRecoversTheMode : Prop :=
  (∀ w : Byte, modeOf w = if w &&& 0x08#8 ≠ 0#8 then .unipolar else .bipolar) ∧
  (∀ (p : Params) (chan : Nat) (mode : PolarityMode), p.Legal → modeOf (encodeCommand p chan mode) = mode) ∧
  modeOf 0xE8 = .unipolar ∧ modeOf 0xE0 = .bipolar

/-- The word of channel `n` is produced exactly when `chan mod 8 = n` (R83 to R90). -/
def Obligations.EncodeProducesTheChannelsWord : Prop :=
  ∀ p : Params, p.Legal → ∀ (chan : Nat) (mode : PolarityMode) (u : BitVec 1), chan < 2 ^ p.chanw →
    (encode p.chsel (.ch0 u) = .cmd8 (encodeCommand p chan mode) ↔ chan % 8 = 0 ∧ u = mode.bit) ∧
    (encode p.chsel (.ch1 u) = .cmd8 (encodeCommand p chan mode) ↔ chan % 8 = 1 ∧ u = mode.bit) ∧
    (encode p.chsel (.ch2 u) = .cmd8 (encodeCommand p chan mode) ↔ chan % 8 = 2 ∧ u = mode.bit) ∧
    (encode p.chsel (.ch3 u) = .cmd8 (encodeCommand p chan mode) ↔ chan % 8 = 3 ∧ u = mode.bit) ∧
    (encode p.chsel (.ch4 u) = .cmd8 (encodeCommand p chan mode) ↔ chan % 8 = 4 ∧ u = mode.bit) ∧
    (encode p.chsel (.ch5 u) = .cmd8 (encodeCommand p chan mode) ↔ chan % 8 = 5 ∧ u = mode.bit) ∧
    (encode p.chsel (.ch6 u) = .cmd8 (encodeCommand p chan mode) ↔ chan % 8 = 6 ∧ u = mode.bit) ∧
    (encode p.chsel (.ch7 u) = .cmd8 (encodeCommand p chan mode) ↔ chan % 8 = 7 ∧ u = mode.bit)

/-- COMPLETION and frame of CH0 to CH7: each answers the state with `cmd <- CHSEL[n] | (uni << 3)` (R83 to R90) and everything
else as it was, but for the control location: that SEND is next is the order of R135, in the model's form (log 7). -/
def Obligations.CommandWordsDriveTheCommandByte : Prop :=
  ∀ (s : State) (u : BitVec 1),
    exec (.ch0 u) s = .next { s with cmd := s.params.chsel.sel 0 ||| (u.zeroExtend 8 <<< 3), point := .sending } ∧
    exec (.ch1 u) s = .next { s with cmd := s.params.chsel.sel 1 ||| (u.zeroExtend 8 <<< 3), point := .sending } ∧
    exec (.ch2 u) s = .next { s with cmd := s.params.chsel.sel 2 ||| (u.zeroExtend 8 <<< 3), point := .sending } ∧
    exec (.ch3 u) s = .next { s with cmd := s.params.chsel.sel 3 ||| (u.zeroExtend 8 <<< 3), point := .sending } ∧
    exec (.ch4 u) s = .next { s with cmd := s.params.chsel.sel 4 ||| (u.zeroExtend 8 <<< 3), point := .sending } ∧
    exec (.ch5 u) s = .next { s with cmd := s.params.chsel.sel 5 ||| (u.zeroExtend 8 <<< 3), point := .sending } ∧
    exec (.ch6 u) s = .next { s with cmd := s.params.chsel.sel 6 ||| (u.zeroExtend 8 <<< 3), point := .sending } ∧
    exec (.ch7 u) s = .next { s with cmd := s.params.chsel.sel 7 ||| (u.zeroExtend 8 <<< 3), point := .sending }

/-! ### The conversion engine -/

/-- COMPLETION and frame of EXTRACT (R100, R48, R49): the code is the big-endian frame shifted right by 4, on the port of the
conversion that the sent command byte's bit 3 selects (R138; the move of the control location there is the model's, log 7);
bits 3:0 of the second byte do not matter; nothing else changes. -/
def Obligations.ExtractGivesTheHighTwelveBits : Prop :=
  ∀ (s : State) (b0 b1 : Byte), ∃ code : Code,
    code.toNat = (b0.toNat * 256 + b1.toNat) / 16 ∧
    exec (.extract b0 b1) s =
      .next { s with point := .word (if modeOf s.cmd = .unipolar then .code12u code else .code12b code) }

/-- EXTRACT ignores the low four bits of the second byte (R100, R67). -/
def Obligations.ExtractIgnoresTheLowNibble : Prop :=
  ∀ (s : State) (b0 b1 b1' : Byte), b1.extractLsb' 4 4 = b1'.extractLsb' 4 4 →
    exec (.extract b0 b1) s = exec (.extract b0 b1') s

/-- COMPLETION and frame of TOVOLT.UNI: `volt <- fmul(fdiv(fp(u), 4095.0), vref)` (R104), kept as the last voltage (R135).
Two clauses are the model's own: a NaN uses up one draw (log 12), and the control location moves to the foot of SAMPLE's loop
(log 7). Nothing else changes. -/
def Obligations.UnipolarConversionCompletes : Prop :=
  ∀ (s : State) (u : Code), ∃ volt : FpVal,
    volt = fmul s.vref.format (fdiv s.vref.format (fpOfNat s.vref.format u.toNat) (fpOfNat s.vref.format 4095))
      (fpVal s.vref) ∧
    exec (.tovoltUni u) s = .next { s with
      last := some (voltDatum s volt)
      draws := if volt = .nan then s.draws + 1 else s.draws
      point := .converted }

/-- COMPLETION and frame of TOVOLT.BIP: `eff = fdiv(vref, 2.0)`, `q = fdiv(fp(mag), 2047.0)`, `t = fmul(sign, q)`,
`volt <- fmul(t, eff)` with `sign = -1.0` exactly when `s = 1` and `mag != 0` (R106, R107), kept as the last voltage (R135).
Two clauses are the model's own: a NaN uses up one draw (log 12), and the control location moves to the foot of SAMPLE's loop
(log 7). Nothing else changes. -/
def Obligations.BipolarConversionCompletes : Prop :=
  ∀ (s : State) (sgn : BitVec 1) (mag : BitVec 11), ∃ (one : Nat) (eff q t volt : FpVal),
    fpOfNat s.vref.format 1 = .val false one ∧
    eff = fdiv s.vref.format (fpVal s.vref) (fpOfNat s.vref.format 2) ∧
    q = fdiv s.vref.format (fpOfNat s.vref.format mag.toNat) (fpOfNat s.vref.format 2047) ∧
    t = fmul s.vref.format (.val (decide (sgn = 1 ∧ mag ≠ 0)) one) q ∧
    volt = fmul s.vref.format t eff ∧
    exec (.tovoltBip sgn mag) s = .next { s with
      last := some (voltDatum s volt)
      draws := if volt = .nan then s.draws + 1 else s.draws
      point := .converted }

/-- Every `fmul` and every `fdiv` of finite operands is the exact result rounded once, to nearest, ties to even, with the
sign of IEEE 754 (R102, R14): in both formats, subnormals and overflow included. -/
def Obligations.ArithmeticIsCorrectlyRounded : Prop :=
  ∀ (x : Fp) (s t : Bool) (a b : Nat), a < infMag x.format → b < infMag x.format →
    (∃ m, fmul x.format (.val s a) (.val t b) = .val (s ^^ t) m ∧
      roundsNearestEven x.format m (quanta x.format a * quanta x.format b) (unitQuanta x.format)) ∧
    (b ≠ 0 → ∃ m, fdiv x.format (.val s a) (.val t b) = .val (s ^^ t) m ∧
      roundsNearestEven x.format m (quanta x.format a * unitQuanta x.format) (quanta x.format b))

/-- `fp(n)` is exact for every `n` in 0 to 4095, in both formats (R111). -/
def Obligations.IntegerConversionIsExact : Prop :=
  ∀ (x : Fp) (n : Nat), n ≤ 4095 →
    ∃ m, fpOfNat x.format n = .val false m ∧ m < infMag x.format ∧ quanta x.format m = n * unitQuanta x.format

/-- For finite `vref`, code 0 gives a zero with the sign of `vref`, and code 4095 gives `vref` exactly (R104, R105, R113). -/
def Obligations.UnipolarEndpoints : Prop :=
  ∀ s : State, isFinite s.vref →
    (∃ t, exec (.tovoltUni 0) s = .next t ∧ t.last = some (fpPack s.vref (fpNeg s.vref) 0)) ∧
    (∃ t, exec (.tovoltUni 4095) s = .next t ∧ t.last = some s.vref)

/-- For positive finite `vref` every unipolar result lies in the closed interval from +0.0 to `vref` (R105, conflict C1). -/
def Obligations.UnipolarRangeIsClosed : Prop :=
  ∀ (s : State) (u : Code), isPositiveFinite s.vref →
    ∃ t v, exec (.tovoltUni u) s = .next t ∧ t.last = some v ∧ v.format = s.vref.format ∧ fpNeg v = false ∧
      fpMag v ≤ fpMag s.vref ∧ fpExact v ≤ fpExact s.vref

/-- For positive finite `vref` the unipolar result does not decrease with the code; for `vref` = 4.096 it increases, so that
all 4096 results are distinct, in both formats (R116). -/
def Obligations.UnipolarIsMonotone : Prop :=
  ∀ (s : State) (u u' : Code), isPositiveFinite s.vref → u.toNat ≤ u'.toNat →
    ∃ t t' v v', exec (.tovoltUni u) s = .next t ∧ exec (.tovoltUni u') s = .next t' ∧
      t.last = some v ∧ t'.last = some v' ∧ fpExact v ≤ fpExact v' ∧
      (s.vref = vrefLike s.vref → u.toNat < u'.toNat → fpExact v < fpExact v')

/-- The bipolar code is sign and magnitude (R106, R108): a code with bit 11 set and a magnitude other than 0 gives the
result of its magnitude with the sign bit flipped (R110), whatever finite `vref` is. -/
def Obligations.BipolarIsOddInTheSignBit : Prop :=
  ∀ (s : State) (mag : BitVec 11), isFinite s.vref → mag ≠ 0 →
    ∃ t t' v, exec (.tovoltBip 0 mag) s = .next t ∧ exec (.tovoltBip 1 mag) s = .next t' ∧
      t.last = some v ∧ t'.last = some (flipSign v) ∧ v ≠ flipSign v

/-- Code 0x800 converts as code 0x000 does, for every `vref`; for positive finite `vref` to +0.0, all bits zero (R109). For
an infinite or NaN `vref` both results are NaNs, and that they are the same NaN is no rule of the spec (R114 leaves sign and
payload open): it is the model's choice that a draw depends on the counter alone (log 12). -/
def Obligations.ZeroMagnitudeIsPositiveZero : Prop :=
  ∀ s : State, exec (.tovoltBip 1 0) s = exec (.tovoltBip 0 0) s ∧
    (isPositiveFinite s.vref → ∃ t v, exec (.tovoltBip 1 0) s = .next t ∧ t.last = some v ∧ v.format = s.vref.format ∧
      v.pattern = 0)

/-- For finite `vref` the effective reference `eff = vref / 2` is finite with the sign of `vref`, code 0x7FF gives `+eff` and
code 0xFFF gives `-eff` exactly (R110). -/
def Obligations.BipolarEndpoints : Prop :=
  ∀ s : State, isFinite s.vref → ∃ e : Nat,
    effectiveRef s.vref.format (fpVal s.vref) = .val (fpNeg s.vref) e ∧ e < infMag s.vref.format ∧
    (∃ t, exec (.tovoltBip 0 2047) s = .next t ∧ t.last = some (fpPack s.vref (fpNeg s.vref) e)) ∧
    (∃ t, exec (.tovoltBip 1 2047) s = .next t ∧ t.last = some (fpPack s.vref (!fpNeg s.vref) e))

/-- For positive finite `vref` every bipolar result lies in the closed interval from `-eff` to `+eff` (R110). -/
def Obligations.BipolarRangeIsClosed : Prop :=
  ∀ (s : State) (sgn : BitVec 1) (mag : BitVec 11), isPositiveFinite s.vref →
    ∃ e t v, effectiveRef s.vref.format (fpVal s.vref) = .val false e ∧
      exec (.tovoltBip sgn mag) s = .next t ∧ t.last = some v ∧ v.format = s.vref.format ∧ fpMag v ≤ e ∧
      -(quanta s.vref.format e : Int) ≤ fpExact v ∧ fpExact v ≤ quanta s.vref.format e

/-- For positive finite `vref` the bipolar result does not decrease with the magnitude where `s = 0`, and does not increase
with it where `s = 1`; for `vref` = 4.096 it increases and decreases, from the 0 of magnitude 0, so that all results are
distinct but for the two codes of magnitude 0 (R116, R108, R109). -/
def Obligations.BipolarIsMonotoneInMagnitude : Prop :=
  ∀ (s : State) (sgn : BitVec 1) (mag mag' : BitVec 11), isPositiveFinite s.vref → mag.toNat ≤ mag'.toNat →
    ∃ t t' v v', exec (.tovoltBip sgn mag) s = .next t ∧ exec (.tovoltBip sgn mag') s = .next t' ∧
      t.last = some v ∧ t'.last = some v' ∧
      (if sgn = 0 then fpExact v ≤ fpExact v' else fpExact v' ≤ fpExact v) ∧
      (s.vref = vrefLike s.vref → (mag = 0 → fpExact v = 0) ∧
        (mag.toNat < mag'.toNat → if sgn = 0 then fpExact v < fpExact v' else fpExact v' < fpExact v))

/-- `eff = fdiv(vref, 2.0)` is inexact if and only if `|vref|` is below `2^(emin+1)` (a subnormal, or a normal of the lowest
binade) and the last significand bit of `vref` is 1 (R112). The spec takes `emin` from general knowledge (entry GK3), so it is
PRESUMED here too (log 16). -/
def Obligations.HalvingIsInexactOnlyForSmallOddReferences : Prop :=
  ∀ x : Fp, isFinite x → ∃ e, effectiveRef x.format (fpVal x) = .val (fpNeg x) e ∧ e < infMag x.format ∧
    (2 * quanta x.format e ≠ quanta x.format (fpMag x) ↔ fpMag x < 2 * 2 ^ x.format.fracBits ∧ fpMag x % 2 = 1)

/-- No step overflows for finite `vref`: every result is finite, and no larger in magnitude than `vref` (R112). -/
def Obligations.FiniteReferenceGivesFiniteVoltage : Prop :=
  ∀ (s : State) (mode : PolarityMode) (code : Code), isFinite s.vref →
    ∃ t v, exec (converterInstr mode code) s = .next t ∧ t.last = some v ∧ v.format = s.vref.format ∧ isFinite v ∧
      fpMag v ≤ fpMag s.vref ∧ t.draws = s.draws

/-- For a zero `vref` every result is that zero, but for the codes with `s = 1` and a magnitude, which give the other zero
(R113). -/
def Obligations.ZeroReferenceGivesZeros : Prop :=
  ∀ s : State, fpMag s.vref = 0 →
    (∀ u : Code, ∃ t, exec (.tovoltUni u) s = .next t ∧ t.last = some s.vref) ∧
    (∀ (sgn : BitVec 1) (mag : BitVec 11), ∃ t, exec (.tovoltBip sgn mag) s = .next t ∧
      t.last = some (if sgn = 1 ∧ mag ≠ 0 then flipSign s.vref else s.vref))

/-- For an infinite `vref` the zero codes give a quiet NaN, the others an infinity with the sign of the product (R113, R114;
which NaN is a free value, log 12). -/
def Obligations.InfiniteReferenceGivesInfinitiesAndNaNs : Prop :=
  ∀ s : State, fpMag s.vref = infMag s.vref.format →
    (∀ u : Code, ∃ t v, exec (.tovoltUni u) s = .next t ∧ t.last = some v ∧
      (if u = 0 then isQuietNan v else v = s.vref)) ∧
    (∀ (sgn : BitVec 1) (mag : BitVec 11), ∃ t v, exec (.tovoltBip sgn mag) s = .next t ∧ t.last = some v ∧
      (if mag = 0 then isQuietNan v else if sgn = 1 then v = flipSign s.vref else v = s.vref))

/-- For a NaN `vref`, quiet or signaling, every result is a quiet NaN, and one draw is used up (R113, R114; which NaN is a
free value, log 12). -/
def Obligations.NanReferenceGivesQuietNaNs : Prop :=
  ∀ (s : State) (mode : PolarityMode) (code : Code), infMag s.vref.format < fpMag s.vref →
    ∃ t v, exec (converterInstr mode code) s = .next t ∧ t.last = some v ∧ v.format = s.vref.format ∧ isQuietNan v ∧
      t.draws = s.draws + 1

/-- Negating a finite `vref` negates every result (R113). -/
def Obligations.NegatedReferenceNegatesTheVoltage : Prop :=
  ∀ (s : State) (mode : PolarityMode) (code : Code), isFinite s.vref →
    ∃ t t' v, exec (converterInstr mode code) s = .next t ∧
      exec (converterInstr mode code) { s with vref := flipSign s.vref } = .next t' ∧
      t.last = some v ∧ t'.last = some (flipSign v)

/-! ### The block as a whole -/

/-- The frame of all eleven instructions (R20, R40, R115, R170): each answers a next state, makes no bus call and touches no
variable of the sequence but its own result: CH0 to CH7 only the command byte, TOVOLT only the last voltage (and the count
of NaN draws, log 12), EXTRACT neither. -/
def Obligations.BlockOperationsTouchOnlyTheirResult : Prop :=
  ∀ (i : Instr) (s : State), ∃ t, exec i s = .next t ∧
    t.handle = s.handle ∧ t.i = s.i ∧ t.k = s.k ∧ t.reports = s.reports ∧ t.status = s.status ∧ t.vref = s.vref ∧
    t.call = s.call ∧ t.params = s.params ∧ t.oracle = s.oracle ∧ t.pending = s.pending ∧ t.trace = s.trace ∧
    (match i with
      | .extract _ _ => t.cmd = s.cmd ∧ t.last = s.last ∧ t.draws = s.draws
      | .tovoltUni _ => t.cmd = s.cmd
      | .tovoltBip _ _ => t.cmd = s.cmd
      | _ => t.last = s.last ∧ t.draws = s.draws)

/-- A step runs the decoded instruction: where a word is on its port and decodes to `i`, the step is `exec i`, and nothing
is added around it. -/
def Obligations.StepRunsTheDecodedInstruction : Prop :=
  ∀ (s : State) (w : PortWord) (i : Instr), s.point = .word w → decode s.params.chsel w = .ok i → step s = exec i s

/-- A table word placed by `withFetchWord` is what the next step decodes and runs (log 8). -/
def Obligations.PlacedWordIsRunNext : Prop :=
  ∀ (s : State) (nbits w : Nat) (i : Instr), s.params.chsel = Config.chselDefault → decodeTableWord nbits w = some i →
    ∃ p, s.withFetchWord nbits w = { s with point := .word p } ∧
      step (s.withFetchWord nbits w) = exec i { s with point := .word p }

/-! ### The bus steps -/

/-- The start of a run (R35): handle closed, channel index 0, no reports, status running, no last voltage. -/
def Obligations.ResetIsTheStartOfARun : Prop :=
  State.reset.handle = .closed ∧ State.reset.i = 0 ∧ State.reset.reports = [] ∧ State.reset.status = .running ∧
    State.reset.last = none

/-- OPEN (R130, R161): the call is `open(busPath)`; a handle goes on with BIND, which is R140's order in the model's form
(log 7); an Error ends the run as Failed(BusOpenFailed), with no CLOSE. -/
def Obligations.OpenOutcomes : Prop :=
  ∀ (s : State) (a : OpenAnswer) (rest : List OpenAnswer), s.point = .openBus → s.handle = .closed →
    s.pending = none → s.oracle.opens = a :: rest → ∃ t, step s = .next t ∧
      t.trace = s.trace ++ [.openBus s.params.busPath] ∧ t.oracle = { s.oracle with opens := rest } ∧
      t.pending = none ∧ t.reports = s.reports ∧ t.i = s.i ∧
      (match a with
        | .handle => t.handle = .opened ∧ t.point = .bindPeer ∧ t.status = s.status
        | .error => t.handle = .closed ∧ t.point = .ended ∧ t.status = .failed .busOpenFailed)

/-- BIND (R131, R162, R10): the call is `bind(h, 0x28)`; on success the sweep begins at channel 0, which is R140's order in
the model's form (log 7); an Error goes on with CLOSE and Failed(BusBindFailed). -/
def Obligations.BindOutcomes : Prop :=
  ∀ (s : State) (a : BindAnswer) (rest : List BindAnswer), s.point = .bindPeer → s.handle = .opened →
    s.pending = none → s.oracle.binds = a :: rest → ∃ t, step s = .next t ∧
      t.trace = s.trace ++ [.bind 0x28] ∧ t.oracle = { s.oracle with binds := rest } ∧ t.pending = none ∧
      t.reports = s.reports ∧
      (match a with
        | .done => t.handle = .bound ∧ t.i = 0 ∧ t.point = .loopHead ∧ t.status = s.status
        | .error => t.point = .closing (some .busBindFailed) ∧ t.handle = .opened ∧
            ∃ t', step t = .next t' ∧ t'.handle = .closed ∧ t'.status = .failed .busBindFailed ∧
              t'.trace = t.trace ++ [.close])

/-- SEND: exactly one byte is offered (R132), once, also where the call is already pending when its answer comes (R54, log 4);
a count of at least 1 is success and the reads begin, `max(repeatCount, 1)` of them (R137, by the spec's decision D13; log 19)
with no voltage yet (R135); a count of 0 or an Error raises WriteFailed (R132, R163): the SAMPLE ends with it and nothing else
changes (R165), so `last` keeps what it held before the SAMPLE, which is the model's reading (logs 11, 22). -/
def Obligations.SendOutcomes : Prop :=
  ∀ (s : State) (a : SendAnswer) (rest : List SendAnswer) (i : Instr), s.point = .sending → s.handle = .bound →
    decode s.params.chsel (.cmd8 s.cmd) = .ok i → s.pending = none ∨ s.pending = some (.send [s.cmd]) →
    s.oracle.sends = a :: rest →
    ∃ t, step s = .next t ∧ t.trace = (if s.pending = none then s.trace ++ [.send [s.cmd]] else s.trace) ∧ t.oracle = { s.oracle with sends := rest } ∧
      t.pending = none ∧ t.cmd = s.cmd ∧ t.reports = s.reports ∧ t.status = s.status ∧ t.handle = .bound ∧
      (match a with
        | .accepted 0 => t.point = .returned (.err .writeFailed) ∧ t.last = s.last ∧ t.k = s.k
        | .accepted (_ + 1) => t.point = .readLoop ∧ t.k = max s.call.repeatCount 1 ∧ t.last = none
        | .error => t.point = .returned (.err .writeFailed) ∧ t.last = s.last ∧ t.k = s.k)

/-- RECV (R133, R45): two bytes are asked for; exactly two are a frame, first byte in bits 15:8 (R48); any other length or an
Error raises ReadFailed (R164): the SAMPLE ends with it. That the frame then stands on EXTRACT's port is R135's order in the
model's form (log 7). -/
def Obligations.RecvOutcomes : Prop :=
  ∀ (s : State) (a : RecvAnswer) (rest : List RecvAnswer), s.point = .readLoop → 0 < s.k → s.handle = .bound →
    s.pending = none → s.oracle.recvs = a :: rest →
    ∃ t, step s = .next t ∧ t.trace = s.trace ++ [.recv 2] ∧ t.oracle = { s.oracle with recvs := rest } ∧
      t.pending = none ∧ t.cmd = s.cmd ∧ t.k = s.k ∧ t.reports = s.reports ∧ t.status = s.status ∧ t.handle = .bound ∧
      (match a with
        | .received [b0, b1] => t.point = .word (.frame16 (b0 ++ b1)) ∧ t.last = s.last
        | .received _ => t.point = .returned (.err .readFailed)
        | .error => t.point = .returned (.err .readFailed))

/-- CLOSE (R134, R140, R144): the handle is released, the call goes on the bus, and the run ends with its status; the reports
stand (R142). That `cmd` and `last` keep what the last SAMPLE left in them is the model's choice (log 22). -/
def Obligations.CloseEndsTheRun : Prop :=
  ∀ (s : State) (failure : Option ErrorKind), s.point = .closing failure → s.handle ≠ .closed →
    ∃ t, step s = .next t ∧ t.handle = .closed ∧ t.trace = s.trace ++ [.close] ∧ t.point = .ended ∧
      t.status = (match failure with | none => .done | some kind => .failed kind) ∧
      t.reports = s.reports ∧ t.i = s.i ∧ t.cmd = s.cmd ∧ t.last = s.last

/-- A SEND or a RECV with the handle not bound is refused (R172). That a SAMPLE is refused at its entry too is the model's
reading of its precondition (R135), DEDUCED (log 17). -/
def Obligations.UnboundHandleIsRefused : Prop :=
  ∀ s : State, s.handle ≠ .bound →
    (s.point = .sampleEntry ∨ s.point = .sending ∨ s.point = .readLoop ∧ 0 < s.k) →
    step s = .refused .handleNotBound

/-- OPEN with a handle that is not closed, BIND with one that is not open, and CLOSE with nothing to release are refused
(R130, R131, R134, R172; log 17). -/
def Obligations.BusPreconditionsAreRefused : Prop :=
  ∀ s : State, (s.point = .openBus → s.handle ≠ .closed → step s = .refused .handleNotClosed) ∧
    (s.point = .bindPeer → s.handle ≠ .opened → step s = .refused .handleNotOpened) ∧
    (∀ failure, s.point = .closing failure → s.handle = .closed → step s = .refused .handleNotHeld) ∧
    (s.point = .releasing → s.handle = .closed → step s = .refused .handleNotHeld)

/-- The entry of SAMPLE (R135, R91, R139): the command word of `chan` and `mode` goes on its port, the `vref` port carries
VREF, and nothing else changes. -/
def Obligations.SampleEntryDrivesTheCommandWord : Prop :=
  ∀ s : State, s.point = .sampleEntry → s.handle = .bound → step s = .next { s with
    vref := (match s.vref with | .b32 _ => .b32 0x4083126F | .b64 _ => .b64 0x4010624DD2F1A9FC)
    point := .word (.cmd8 (encodeCommand s.params s.call.chan s.call.mode)) }

/-- The loop of SAMPLE (R135, R136): a computed voltage counts one read down; with no read left, SAMPLE returns the last
voltage; and with none computed it stops by name, no voltage being made up (93 entry U13, log 18). -/
def Obligations.ReadLoopCountsDown : Prop :=
  ∀ s : State, (s.point = .converted → step s = .next { s with k := s.k - 1, point := .readLoop }) ∧
    (∀ v, s.point = .readLoop → s.k = 0 → s.last = some v → step s = .next { s with point := .returned (.ok v) }) ∧
    (s.point = .readLoop → s.k = 0 → s.last = none → step s = .fault .noVoltage)

/-- The loop of SWEEP (R140, R142, R143): while `i <= 7` it calls `SAMPLE(i, Unipolar, 1)`; an Ok is reported for `i` and `i`
counts up; an Err goes on with CLOSE and its kind; after channel 7 CLOSE follows with no failure. That an Err goes on with
CLOSE after a direct call too is R182's "after the first failure"; that CLOSE then writes Failed is DEDUCED (log 21). That
`cmd`, `k` and `last` keep what the ended SAMPLE left in them is the model's choice (log 22). -/
def Obligations.SweepLoopOutcomes : Prop :=
  ∀ s : State, (s.point = .loopHead → s.i ≤ 7 → step s = .next { s with
      call := { caller := .sweep, chan := s.i, mode := .unipolar, repeatCount := 1 }
      point := .sampleEntry }) ∧
    (s.point = .loopHead → 7 < s.i → step s = .next { s with point := .closing none }) ∧
    (∀ v, s.point = .returned (.ok v) → s.call.caller = .sweep →
      step s = .next { s with reports := s.reports ++ [(s.i, v)], i := s.i + 1, point := .loopHead }) ∧
    (∀ kind, s.point = .returned (.err kind) → step s = .next { s with point := .closing (some kind) })

/-- A bus call that is never answered leaves the sequence stuck (R54, R168): the call is on the bus once, no error is raised,
no handle, status, result or report changes, and every further step leaves the state as it is (the model's form of "no step",
log 4). -/
def Obligations.UnansweredCallIsStuck : Prop :=
  ∀ (s : State) (c : BusCall), sequenceInv s → nextCall s = some c → ¬ oracleAnswers s →
    step s = .next (s.issue c) ∧ step (s.issue c) = .next (s.issue c) ∧ ¬ isOver (s.issue c) ∧
      (s.issue c).status = .running ∧ (s.issue c).handle = s.handle ∧ (s.issue c).last = s.last ∧
      (s.issue c).reports = s.reports ∧ (s.pending = none → (s.issue c).trace = s.trace ++ [c])

/-! ### SAMPLE and SWEEP -/

/-- SAMPLE (R135 to R139): with its write accepted and its `max(repeatCount, 1)` reads answered by two bytes each, it returns
the voltage of the LAST frame, converted under the mode of the command byte with VREF; the command byte of `chan` and
`mode` was sent once, before the reads; nothing is reported and the handle stays bound. -/
def Obligations.SampleReturnsTheLastVoltage : Prop :=
  ∀ (s : State) (accepted : Nat) (sends : List SendAnswer) (frames : List (Byte × Byte)) (frame : Byte × Byte)
    (recvs : List RecvAnswer),
    s.point = .sampleEntry → s.handle = .bound → s.pending = none → s.params.Legal →
    s.oracle.sends = .accepted (accepted + 1) :: sends → s.oracle.recvs = frames.map goodRead ++ recvs →
    frames.length = max s.call.repeatCount 1 → frames.getLast? = some frame →
    ∃ n t v, core.run n s = .next t ∧ t.point = .returned (.ok v) ∧ v.format = s.vref.format ∧
      fpVal v = frameVolt s.vref s.call.mode frame ∧ t.last = some v ∧ t.k = 0 ∧
      t.cmd = encodeCommand s.params s.call.chan s.call.mode ∧
      t.trace = s.trace ++ .send [encodeCommand s.params s.call.chan s.call.mode] ::
        List.replicate frames.length (.recv 2) ∧
      t.oracle = { s.oracle with sends := sends, recvs := recvs } ∧ t.pending = none ∧
      t.handle = .bound ∧ t.status = s.status ∧ t.reports = s.reports ∧ t.i = s.i ∧ t.call = s.call

/-- A SAMPLE whose read fails after `frames.length` good ones returns Err(ReadFailed) at once (R136, R164, R165): no further
read is made, no voltage is kept (log 11), the failed answer's bytes are discarded. -/
def Obligations.SampleFailsAtAFailedRead : Prop :=
  ∀ (s : State) (accepted : Nat) (sends : List SendAnswer) (frames : List (Byte × Byte)) (bad : RecvAnswer)
    (recvs : List RecvAnswer),
    s.point = .sampleEntry → s.handle = .bound → s.pending = none → s.params.Legal →
    s.oracle.sends = .accepted (accepted + 1) :: sends → s.oracle.recvs = frames.map goodRead ++ bad :: recvs →
    frames.length < max s.call.repeatCount 1 → readBytes bad = none →
    ∃ n t, core.run n s = .next t ∧ t.point = .returned (.err .readFailed) ∧ t.last = none ∧
      t.trace = s.trace ++ .send [encodeCommand s.params s.call.chan s.call.mode] ::
        List.replicate (frames.length + 1) (.recv 2) ∧
      t.oracle = { s.oracle with sends := sends, recvs := recvs } ∧ t.pending = none ∧
      t.handle = .bound ∧ t.status = s.status ∧ t.reports = s.reports ∧ t.i = s.i ∧ t.call = s.call

/-- SWEEP (R140, R143, R144, R146): with every call answered well, a run opens, binds, samples channels 0 to 7 in order, each
command byte followed by one read, reports each channel once in order with the voltage of its frame, closes, and is
Done(0). -/
def Obligations.SweepReportsTheEightChannels : Prop :=
  ∀ (s : State) (opens : List OpenAnswer) (binds : List BindAnswer) (answers sends : List SendAnswer)
    (frames : List (Byte × Byte)) (recvs : List RecvAnswer),
    atStart s → s.params.Legal → s.oracle.opens = .handle :: opens → s.oracle.binds = .done :: binds →
    s.oracle.sends = answers ++ sends → s.oracle.recvs = frames.map goodRead ++ recvs →
    answers.length = 8 → (∀ a ∈ answers, writeSucceeded a = true) → frames.length = 8 →
    ∃ n t, core.run n s = .next t ∧ t.point = .ended ∧ t.status = .done ∧ t.handle = .closed ∧ t.i = 8 ∧
      t.reports.map (fun r => (r.1, fpVal r.2)) =
        (List.range 8).zip (frames.map (frameVolt s.vref .unipolar)) ∧
      (∀ r ∈ t.reports, r.2.format = s.vref.format) ∧
      t.trace = s.trace ++ [.openBus s.params.busPath, .bind Config.peer] ++
        (List.range 8).flatMap (channelCalls s.params) ++ [.close] ∧
      exitCode t = some 0

/-- Fail-fast (R142, R146, R164): a read that fails at channel `c` ends the sweep: channels below `c` are reported, no
channel above is addressed, the handle is released, and the status is Failed(ReadFailed). -/
def Obligations.SweepFailsFastOnAFailedRead : Prop :=
  ∀ (s : State) (opens : List OpenAnswer) (binds : List BindAnswer) (answers sends : List SendAnswer)
    (frames : List (Byte × Byte)) (bad : RecvAnswer) (recvs : List RecvAnswer),
    atStart s → s.params.Legal → s.oracle.opens = .handle :: opens → s.oracle.binds = .done :: binds →
    s.oracle.sends = answers ++ sends → s.oracle.recvs = frames.map goodRead ++ bad :: recvs →
    frames.length ≤ 7 → answers.length = frames.length + 1 → (∀ a ∈ answers, writeSucceeded a = true) →
    readBytes bad = none →
    ∃ n t, core.run n s = .next t ∧ t.point = .ended ∧ t.status = .failed .readFailed ∧ t.handle = .closed ∧
      t.i = frames.length ∧
      t.reports.map (fun r => (r.1, fpVal r.2)) =
        (List.range frames.length).zip (frames.map (frameVolt s.vref .unipolar)) ∧
      t.trace = s.trace ++ [.openBus s.params.busPath, .bind Config.peer] ++
        (List.range (frames.length + 1)).flatMap (channelCalls s.params) ++ [.close]

/-- Fail-fast (R142, R163): a write that fails at channel `c` ends the sweep before its read: channels below `c` are
reported, the handle is released, and the status is Failed(WriteFailed). -/
def Obligations.SweepFailsFastOnAFailedWrite : Prop :=
  ∀ (s : State) (opens : List OpenAnswer) (binds : List BindAnswer) (answers sends : List SendAnswer) (bad : SendAnswer)
    (frames : List (Byte × Byte)) (recvs : List RecvAnswer),
    atStart s → s.params.Legal → s.oracle.opens = .handle :: opens → s.oracle.binds = .done :: binds →
    s.oracle.sends = answers ++ bad :: sends → s.oracle.recvs = frames.map goodRead ++ recvs →
    frames.length ≤ 7 → answers.length = frames.length → (∀ a ∈ answers, writeSucceeded a = true) →
    writeSucceeded bad = false →
    ∃ n t, core.run n s = .next t ∧ t.point = .ended ∧ t.status = .failed .writeFailed ∧ t.handle = .closed ∧
      t.i = frames.length ∧
      t.reports.map (fun r => (r.1, fpVal r.2)) =
        (List.range frames.length).zip (frames.map (frameVolt s.vref .unipolar)) ∧
      t.trace = s.trace ++ [.openBus s.params.busPath, .bind Config.peer] ++
        (List.range frames.length).flatMap (channelCalls s.params) ++
        [.send [encodeCommand s.params frames.length .unipolar], .close]

/-! ### The whole machine -/

/-- The invariant of the sequence holds at State.reset (R33, R35). Two of its clauses rest there on the model and on no rule:
the `vref` port carries VREF before the first SAMPLE, which the spec leaves undriven (DEDUCED, log 10), and the parameters
have the default table, width and path (log 1). -/
def Obligations.ResetMeetsTheInvariant : Prop := sequenceInv State.reset

/-- Every step keeps the invariant of the sequence: the channel index stays 0 to 8 (R33), exactly the channels below it are
reported, in order (R143), the command byte stays that of the SAMPLE in progress (R183, R184), the handle is held from OPEN's
success to CLOSE (R130, R134) and closed once the run has ended (R144), the converter has VREF in every SAMPLE (R139). Three
clauses are the model's: VREF on the port before the first SAMPLE (DEDUCED, log 10), no last voltage after a failed read
(DEDUCED, log 11), and what holds after the outside's CLOSE (log 21). -/
def Obligations.EveryStepKeepsTheInvariant : Prop :=
  ∀ s t : State, sequenceInv s → step s = .next t → sequenceInv t

/-- From a state that meets the invariant no step faults and none is refused (R170, R172: "the sequence itself never does
this"). -/
def Obligations.InvariantStatesAlwaysStep : Prop :=
  ∀ s : State, sequenceInv s → ∃ t, step s = .next t

/-- From a state that meets the invariant and is not over, a step whose bus call is answered, or that makes none, lowers a
variant; this is why every run in which the oracle answers every call ends (R141). That CLOSE makes no call that could stay
unanswered is the model's reading (DEDUCED, log 15); that a direct SAMPLE which has returned a voltage counts as over is the
model's too (log 5). -/
def Obligations.AnsweredStepsApproachTheEnd : Prop :=
  ∀ s : State, sequenceInv s → ¬ isOver s → oracleAnswers s → ∃ t, step s = .next t ∧ stepsLeft t < stepsLeft s

/-- A run that has ended stays as it is (R144, R167): the handle is closed and no step changes anything. -/
def Obligations.EndedRunStaysEnded : Prop :=
  ∀ s : State, sequenceInv s → s.status ≠ .running → s.point = .ended ∧ s.handle = .closed ∧ step s = .next s

/-- Reports are only ever added, one at a time, for the channel index, by the return of a sweep's SAMPLE with a voltage
(R142, R143). -/
def Obligations.ReportsAreOnlyAppended : Prop :=
  ∀ s t : State, step s = .next t → t.reports = s.reports ∧ (t.i = s.i ∨ s.point = .bindPeer ∧ t.i = 0) ∨
    ∃ v, s.point = .returned (.ok v) ∧ s.call.caller = .sweep ∧ t.reports = s.reports ++ [(s.i, v)] ∧ t.i = s.i + 1

/-- No step writes a parameter: the channel table is a constant (R53), and so are the other two; no step changes the format
of the reference (R13). -/
def Obligations.ParametersAreNeverWritten : Prop :=
  ∀ s t : State, step s = .next t → t.params = s.params ∧ t.vref.format = s.vref.format

/-- Only a bus step makes a bus call, at most one a step, and only the call that the control location makes, or CLOSE (R40,
R50), the outside's among them (log 21). -/
def Obligations.OneBusCallAStep : Prop :=
  ∀ s t : State, step s = .next t → t.trace = s.trace ∨ (∃ c, nextCall s = some c ∧ t.trace = s.trace ++ [c]) ∨
    ((∃ failure, s.point = .closing failure) ∨ s.point = .releasing) ∧ t.trace = s.trace ++ [.close]

/-- The exit code is 0 exactly on full success, some non-zero number (a free value, log 13) exactly on failure, and there
is none while the run goes on (R144). -/
def Obligations.ExitCodeIsZeroOnSuccessOnly : Prop :=
  ∀ s : State, (exitCode s = some 0 ↔ s.status = .done) ∧
    ((∃ kind, s.status = .failed kind) ↔ ∃ n, exitCode s = some n ∧ n ≠ 0) ∧
    (exitCode s = none ↔ s.status = .running)

/-- The outside's direct calls (R135, R140, R182, R188; the forms are the model's, log 21). Where the sequence is at rest
with the handle bound (BIND has succeeded and no channel has begun, or a direct SAMPLE has returned a voltage), SAMPLE begins
with its operands, and CLOSE releases the handle and leaves the status as it is; both keep the invariant. Anywhere else, in
the midst of another SAMPLE or after an error, each is refused, so no two SAMPLEs overlap. That `last` outlives the CLOSE is
the model's choice too (log 22). -/
def Obligations.DirectCallsKeepTheInvariant : Prop :=
  ∀ (s : State) (chan repeatCount : Nat) (mode : PolarityMode), sequenceInv s → s.handle = .bound →
    (s.point = .loopHead ∧ s.i = 0 ∨ (∃ v, s.point = .returned (.ok v)) ∧ s.call.caller = .direct →
      (∃ t, callSample s chan mode repeatCount = .next t ∧ sequenceInv t ∧ t = { s with
        call := { caller := .direct, chan := chan, mode := mode, repeatCount := repeatCount }
        point := .sampleEntry }) ∧
      ∃ t u, callClose s = .next t ∧ sequenceInv t ∧ step t = .next u ∧ u.handle = .closed ∧
        u.trace = s.trace ++ [.close] ∧ u.status = s.status ∧ u.reports = s.reports ∧ u.last = s.last ∧
        step u = .next u) ∧
    (¬ (s.point = .loopHead ∧ s.i = 0 ∨ (∃ v, s.point = .returned (.ok v)) ∧ s.call.caller = .direct) →
      callSample s chan mode repeatCount = .refused .notAtRest ∧ callClose s = .refused .notAtRest)
end

