-- ==== Sys2Proof/Laws/Float.lean ====
section
/-! SUPPORT. Sys2Proof/Laws/Float.lean: what rounding does (42_conversion_engine rule R102), once and for all: its
bounds, its exactness on representable values and its monotonicity; packing and unpacking a datum; the product and the
quotient of finite values. -/

namespace Sys2Proof.Machine

/-- Rounding gives the floor or the next integer. -/
theorem roundDiv_floor_or_next (n d : Nat) : n / d ≤ roundDiv n d ∧ roundDiv n d ≤ n / d + 1 := by
  unfold roundDiv; split_ifs <;> omega

/-- Rounding respects an integer upper bound. -/
theorem roundDiv_le {n d q : Nat} (hd : 0 < d) (h : n ≤ q * d) : roundDiv n d ≤ q := by
  have hdm := Nat.div_add_mod n d
  have hq : n / d ≤ q := Nat.div_le_of_le_mul (by rw [Nat.mul_comm]; exact h)
  rcases Nat.lt_or_ge (n / d) q with hlt | hge
  · have := roundDiv_floor_or_next n d; omega
  · have he : n / d = q := by omega
    have h0 : n % d = 0 := by rw [he, Nat.mul_comm] at hdm; omega
    simp [roundDiv, h0, hd, hq]

/-- Rounding respects an integer lower bound. -/
theorem le_roundDiv {n d q : Nat} (hd : 0 < d) (h : q * d ≤ n) : q ≤ roundDiv n d :=
  ((Nat.le_div_iff_mul_le hd).2 h).trans (roundDiv_floor_or_next n d).1

/-- Rounding is monotone in the numerator. -/
theorem roundDiv_mono {n n' d : Nat} (h : n ≤ n') : roundDiv n d ≤ roundDiv n' d := by
  have hq := Nat.div_le_div_right (c := d) h
  rcases Nat.lt_or_ge (n / d) (n' / d) with hlt | hge
  · have h1 := roundDiv_floor_or_next n d
    have h2 := roundDiv_floor_or_next n' d
    omega
  · have he : n / d = n' / d := by omega
    have h1 := Nat.div_add_mod n d
    have h2 := Nat.div_add_mod n' d
    rw [he] at h1
    unfold roundDiv
    rw [he]
    split_ifs <;> omega

/-- The rounded quotient is within half of the exact one. -/
theorem roundDiv_near {n d : Nat} (hd : 0 < d) :
    2 * (roundDiv n d * d) ≤ 2 * n + d ∧ 2 * n ≤ 2 * (roundDiv n d * d) + d := by
  have hdm := Nat.div_add_mod n d
  have hr := Nat.mod_lt n hd
  rw [Nat.mul_comm] at hdm
  have hcases : roundDiv n d = n / d ∧ 2 * (n % d) ≤ d ∨ roundDiv n d = n / d + 1 ∧ d ≤ 2 * (n % d) := by
    unfold roundDiv
    rcases Nat.mod_two_eq_zero_or_one (n / d) with e | e <;> rw [e] <;> split_ifs <;> omega
  rcases hcases with ⟨h, _⟩ | ⟨h, _⟩ <;> rw [h]
  · omega
  · rw [Nat.add_mul, Nat.one_mul]; omega

variable {f : FpFormat}

/-- The shift leaves an integer part no longer than a significand, and no shorter unless there is no shift. -/
theorem quotient_bounds {n d : Nat} (hd : 0 < d) :
    (roundShift f n d = 0 ∨ 2 ^ f.fracBits * (d * 2 ^ roundShift f n d) ≤ n) ∧
      n < 2 ^ (f.fracBits + 1) * (d * 2 ^ roundShift f n d) := by
  have hlt : n / d < 2 ^ (Nat.log2 (n / d) + 1) := Nat.lt_log2_self
  have hpos : ∀ k : Nat, 0 < 2 ^ k := fun k => Nat.two_pow_pos k
  constructor
  · by_cases h0 : roundShift f n d = 0
    · exact .inl h0
    · refine .inr ?_
      have hge : f.fracBits + roundShift f n d = Nat.log2 (n / d) := by
        unfold roundShift at *; omega
      have hne : n / d ≠ 0 := by
        intro h; simp [roundShift, h] at h0
      have h1 : 2 ^ Nat.log2 (n / d) ≤ n / d := Nat.log2_self_le hne
      have h2 := (Nat.le_div_iff_mul_le hd).1 h1
      rw [← hge, Nat.pow_add] at h2
      calc _ = 2 ^ f.fracBits * 2 ^ roundShift f n d * d := by ring
        _ ≤ n := h2
  · have hle : Nat.log2 (n / d) + 1 ≤ f.fracBits + 1 + roundShift f n d := by
      unfold roundShift; omega
    have h1 : n / d < 2 ^ (f.fracBits + 1 + roundShift f n d) :=
      hlt.trans_le (Nat.pow_le_pow_right (by decide) hle)
    have h2 := (Nat.div_lt_iff_lt_mul hd).1 h1
    calc n < _ := h2
      _ = _ := by rw [Nat.pow_add]; ring

/-- The rounded significand: at most one past the longest, and full unless there is no shift. -/
theorem significand_bounds {n d : Nat} (hd : 0 < d) :
    (roundShift f n d = 0 ∨ 2 ^ f.fracBits ≤ roundDiv n (d * 2 ^ roundShift f n d)) ∧
      roundDiv n (d * 2 ^ roundShift f n d) ≤ 2 ^ (f.fracBits + 1) := by
  have hd' : 0 < d * 2 ^ roundShift f n d := Nat.mul_pos hd (Nat.two_pow_pos _)
  obtain ⟨hlo, hhi⟩ := quotient_bounds (f := f) (n := n) hd
  exact ⟨hlo.imp_right (le_roundDiv hd'), roundDiv_le hd' hhi.le⟩

/-- The size of a magnitude field built from a shift and a significand. -/
theorem quanta_pack {sh q : Nat} (hlo : sh = 0 ∨ 2 ^ f.fracBits ≤ q) (hhi : q ≤ 2 ^ (f.fracBits + 1)) :
    quanta f (sh * 2 ^ f.fracBits + q) = q * 2 ^ sh := by
  have hp : 0 < 2 ^ f.fracBits := Nat.two_pow_pos _
  have hpow : 2 ^ (f.fracBits + 1) = 2 ^ f.fracBits + 2 ^ f.fracBits := by rw [Nat.pow_succ]; omega
  generalize hP : 2 ^ f.fracBits = P at *
  unfold quanta
  rw [hP]
  rcases Nat.lt_or_ge q P with hq | hq
  · have : sh = 0 := by omega
    subst this
    simp [Nat.div_eq_of_lt hq]
  · have hcases : q < 2 * P ∨ q = 2 * P := by omega
    rcases hcases with h | h
    · obtain ⟨r, rfl⟩ := Nat.exists_eq_add_of_le hq
      have hr : r < P := by omega
      have hdiv : (sh * P + (P + r)) / P = sh + 1 := by
        rw [show sh * P + (P + r) = r + (sh + 1) * P by ring, Nat.add_mul_div_right _ _ hp, Nat.div_eq_of_lt hr]
        omega
      have hmod : (sh * P + (P + r)) % P = r := by
        rw [show sh * P + (P + r) = r + (sh + 1) * P by ring, Nat.add_mul_mod_self_right, Nat.mod_eq_of_lt hr]
      simp [hdiv, hmod]
    · subst h
      have hdiv : (sh * P + 2 * P) / P = sh + 2 := by
        rw [show sh * P + 2 * P = (sh + 2) * P by ring, Nat.mul_div_cancel _ hp]
      have hmod : (sh * P + 2 * P) % P = 0 := by
        rw [show sh * P + 2 * P = (sh + 2) * P by ring, Nat.mul_mod_left]
      simp only [hdiv, hmod]
      simp
      ring

/-- Every magnitude field is a shift and a significand. -/
theorem quanta_cases (f : FpFormat) (m : Nat) :
    ∃ sh q, m = sh * 2 ^ f.fracBits + q ∧ quanta f m = q * 2 ^ sh ∧ (sh = 0 ∨ 2 ^ f.fracBits ≤ q) ∧
      q < 2 ^ (f.fracBits + 1) := by
  have hp : 0 < 2 ^ f.fracBits := Nat.two_pow_pos _
  have hpow : 2 ^ (f.fracBits + 1) = 2 ^ f.fracBits + 2 ^ f.fracBits := by rw [Nat.pow_succ]; omega
  have hdm := Nat.div_add_mod m (2 ^ f.fracBits)
  have hr := Nat.mod_lt m hp
  by_cases h0 : m / 2 ^ f.fracBits = 0
  · exact ⟨0, m, by simp, by simp [quanta, h0], .inl rfl, by rw [h0] at hdm; omega⟩
  · refine ⟨m / 2 ^ f.fracBits - 1, 2 ^ f.fracBits + m % 2 ^ f.fracBits, ?_, by simp [quanta, h0], .inr (by omega), by omega⟩
    obtain ⟨e, he⟩ := Nat.exists_eq_succ_of_ne_zero h0
    rw [he] at hdm ⊢
    simp only [Nat.succ_sub_one]
    rw [Nat.mul_succ, Nat.mul_comm] at hdm
    omega

/-- The next magnitude field is larger. -/
theorem quanta_lt_succ (f : FpFormat) (m : Nat) : quanta f m < quanta f (m + 1) := by
  obtain ⟨sh, q, hm, hq, hlo, hhi⟩ := quanta_cases f m
  have h1 : quanta f (m + 1) = (q + 1) * 2 ^ sh := by
    rw [hm, Nat.add_assoc]
    exact quanta_pack (hlo.imp_right (fun h => by omega)) hhi
  rw [hq, h1]
  exact (Nat.mul_lt_mul_right (Nat.two_pow_pos _)).2 (Nat.lt_succ_self q)

/-- The order of magnitude fields is the order of their sizes. -/
theorem quanta_strictMono (f : FpFormat) : StrictMono (quanta f) := strictMono_nat_of_lt_succ (quanta_lt_succ f)

/-- An exact quotient is its own rounding. -/
theorem roundDiv_mul_self {q d : Nat} (hd : 0 < d) : roundDiv (q * d) d = q := by
  simp [roundDiv, hd]

/-- A representable value is its own rounding, up to infinity. -/
theorem roundRatio_quanta (f : FpFormat) (m : Nat) {d : Nat} (hd : 0 < d) :
    roundRatio f (quanta f m * d) d = min m (infMag f) := by
  obtain ⟨sh, q, hm, hq, hlo, hhi⟩ := quanta_cases f m
  have hsh : roundShift f (quanta f m * d) d = sh := by
    unfold roundShift
    rw [Nat.mul_div_cancel _ hd, hq]
    rcases Nat.eq_zero_or_pos q with rfl | hqpos
    · have : sh = 0 := by have := Nat.two_pow_pos f.fracBits; omega
      simp [this]
    · rcases hlo with rfl | h
      · have : Nat.log2 q < f.fracBits + 1 := (Nat.log2_lt (by omega)).2 hhi
        simp only [Nat.pow_zero, Nat.mul_one]
        omega
      · have : Nat.log2 (q * 2 ^ sh) = f.fracBits + sh := by
          refine (Nat.log2_eq_iff (Nat.mul_pos hqpos (Nat.two_pow_pos _)).ne').2 ⟨?_, ?_⟩
          · rw [Nat.pow_add]; exact Nat.mul_le_mul_right _ h
          · rw [show f.fracBits + sh + 1 = f.fracBits + 1 + sh by omega, Nat.pow_add]
            exact (Nat.mul_lt_mul_right (Nat.two_pow_pos _)).2 hhi
        omega
  unfold roundRatio
  rw [hsh, hq, show q * 2 ^ sh * d = q * (d * 2 ^ sh) by ring,
    roundDiv_mul_self (Nat.mul_pos hd (Nat.two_pow_pos _)), ← hm]

/-- The shift is monotone in the numerator. -/
theorem roundShift_mono {f : FpFormat} {n n' d : Nat} (h : n ≤ n') : roundShift f n d ≤ roundShift f n' d := by
  have hq := Nat.div_le_div_right (c := d) h
  have : Nat.log2 (n / d) ≤ Nat.log2 (n' / d) := by
    rcases Nat.eq_zero_or_pos (n / d) with h0 | h0
    · simp [h0]
    · exact (Nat.le_log2 (by omega)).2 ((Nat.log2_self_le (by omega)).trans hq)
  unfold roundShift
  omega

/-- Rounding to the format is monotone in the numerator (R116 rests on it). -/
theorem roundRatio_mono {f : FpFormat} {n n' d : Nat} (hd : 0 < d) (h : n ≤ n') :
    roundRatio f n d ≤ roundRatio f n' d := by
  obtain ⟨-, hhi⟩ := significand_bounds (f := f) (n := n) hd
  obtain ⟨hlo, -⟩ := significand_bounds (f := f) (n := n') hd
  have hsh := roundShift_mono (f := f) (d := d) h
  refine min_le_min_right _ ?_
  rcases Nat.lt_or_ge (roundShift f n d) (roundShift f n' d) with hlt | hge
  · have hlo' := hlo.resolve_left (by omega)
    have hstep : (roundShift f n d + 1) * 2 ^ f.fracBits ≤ roundShift f n' d * 2 ^ f.fracBits :=
      Nat.mul_le_mul_right _ hlt
    rw [Nat.succ_mul] at hstep
    rw [Nat.pow_succ] at hhi
    omega
  · have he : roundShift f n d = roundShift f n' d := by omega
    rw [he]
    exact Nat.add_le_add_left (roundDiv_mono h) _

/-- A packed datum has the format it is packed for. -/
@[simp] theorem fpPack_format (x : Fp) (neg : Bool) (mag : Nat) : (fpPack x neg mag).format = x.format := by
  cases x <;> rfl

/-- There are two formats (R13). -/
theorem format_cases (x : Fp) : x.format = .binary32 ∨ x.format = .binary64 := by
  cases x <;> simp [Fp.format]

/-- The magnitude field is the bits below the sign. -/
theorem fpMag_lt (x : Fp) : fpMag x < 2 ^ x.format.magBits := Nat.mod_lt _ (Nat.two_pow_pos _)

/-- An infinity fits below the sign bit. -/
theorem infMag_lt (x : Fp) : infMag x.format < 2 ^ x.format.magBits := by
  rcases format_cases x with h | h <;> rw [h] <;> decide +kernel

/-- The magnitude field of a packed datum. -/
theorem fpMag_fpPack {x : Fp} {neg : Bool} {mag : Nat} (h : mag < 2 ^ x.format.magBits) :
    fpMag (fpPack x neg mag) = mag := by
  cases x <;> cases neg <;>
    simp only [fpMag, fpPack, Fp.pattern, Fp.format, FpFormat.binary32, FpFormat.binary64, FpFormat.magBits,
      BitVec.toNat_ofNat] at * <;> simp <;> omega

/-- The sign of a packed datum. -/
theorem fpNeg_fpPack {x : Fp} {neg : Bool} {mag : Nat} (h : mag < 2 ^ x.format.magBits) :
    fpNeg (fpPack x neg mag) = neg := by
  cases x <;> cases neg <;>
    simp only [fpNeg, fpPack, Fp.pattern, Fp.format, FpFormat.binary32, FpFormat.binary64, FpFormat.magBits,
      BitVec.toNat_ofNat] at * <;> simp <;> omega

/-- Sign and magnitude field make the datum. -/
theorem fpPack_self (x : Fp) : fpPack x (fpNeg x) (fpMag x) = x := by
  cases x with
  | b32 v =>
    have := v.isLt
    have hm : fpMag (.b32 v) = v.toNat % 2 ^ 31 := rfl
    have hn : fpNeg (.b32 v) = decide (2 ^ 31 ≤ v.toNat) := rfl
    rw [fpPack, hm, hn, Fp.b32.injEq]
    apply BitVec.eq_of_toNat_eq
    rw [BitVec.toNat_ofNat]
    by_cases h : 2 ^ 31 ≤ v.toNat
    · rw [if_pos (by simpa using h)]; omega
    · rw [if_neg (by simpa using h)]; omega
  | b64 v =>
    have := v.isLt
    have hm : fpMag (.b64 v) = v.toNat % 2 ^ 63 := rfl
    have hn : fpNeg (.b64 v) = decide (2 ^ 63 ≤ v.toNat) := rfl
    rw [fpPack, hm, hn, Fp.b64.injEq]
    apply BitVec.eq_of_toNat_eq
    rw [BitVec.toNat_ofNat]
    by_cases h : 2 ^ 63 ≤ v.toNat
    · rw [if_pos (by simpa using h)]; omega
    · rw [if_neg (by simpa using h)]; omega

/-- A packed number denotes its sign and magnitude. -/
theorem fpVal_fpPack {x : Fp} {neg : Bool} {mag : Nat} (h : mag ≤ infMag x.format) :
    fpVal (fpPack x neg mag) = .val neg mag := by
  have hlt := h.trans_lt (infMag_lt x)
  rw [fpVal, fpMag_fpPack hlt, fpNeg_fpPack hlt, fpPack_format, if_neg (by omega)]

/-- A datum up to infinity is a number. -/
theorem fpVal_of_le {x : Fp} (h : fpMag x ≤ infMag x.format) : fpVal x = .val (fpNeg x) (fpMag x) := by
  rw [fpVal, if_neg (by omega)]

/-- A magnitude field above that of infinity is a NaN. -/
theorem fpVal_of_nan {x : Fp} (h : infMag x.format < fpMag x) : fpVal x = .nan := by
  rw [fpVal, if_pos h]

/-- Whatever the free bits are, what they draw is a quiet NaN of the format (R114). -/
theorem quietNan_isQuietNan (x : Fp) (bits : BitVec 64) :
    isQuietNan (quietNan x bits) ∧ (quietNan x bits).format = x.format := by
  have h : infMag x.format + 2 ^ (x.format.fracBits - 1) + bits.toNat % 2 ^ (x.format.fracBits - 1) <
      2 ^ x.format.magBits := by
    have hm : bits.toNat % 2 ^ (x.format.fracBits - 1) < 2 ^ (x.format.fracBits - 1) :=
      Nat.mod_lt _ (Nat.two_pow_pos _)
    have hx : infMag x.format + 2 ^ (x.format.fracBits - 1) + 2 ^ (x.format.fracBits - 1) ≤
        2 ^ x.format.magBits := by
      rcases format_cases x with h | h <;> rw [h] <;> decide +kernel
    omega
  refine ⟨?_, by simp [quietNan]⟩
  rw [isQuietNan, quietNan, fpMag_fpPack h, fpPack_format]
  omega

/-- Rounding gives at most infinity. -/
theorem roundRatio_le_infMag (f : FpFormat) (n d : Nat) : roundRatio f n d ≤ infMag f := min_le_right _ _

/-- A zero has size 0. -/
@[simp] theorem quanta_zero (f : FpFormat) : quanta f 0 = 0 := by simp [quanta]

/-- A unit is more than nothing. -/
theorem unitQuanta_pos (f : FpFormat) : 0 < unitQuanta f := Nat.two_pow_pos _

/-- The magnitude field of 1.0. -/
def oneMag (f : FpFormat) : Nat := (2 ^ (f.expBits - 1) - 1) * 2 ^ f.fracBits

/-- The size of 1.0 is one unit, and 1.0 is finite. -/
theorem quanta_one (x : Fp) : quanta x.format (oneMag x.format) = unitQuanta x.format ∧ oneMag x.format < infMag x.format := by
  rcases format_cases x with h | h <;> rw [h] <;> decide +kernel

/-- A number over itself rounds to 1.0. -/
theorem roundRatio_same {x : Fp} {d : Nat} (hd : 0 < d) :
    roundRatio x.format (d * unitQuanta x.format) d = oneMag x.format := by
  have h := roundRatio_quanta x.format (oneMag x.format) hd
  rw [(quanta_one x).1, Nat.mul_comm] at h
  rw [h, Nat.min_eq_left (quanta_one x).2.le]

/-- A representable quotient is its own rounding. -/
theorem roundRatio_exact {f : FpFormat} {m n d : Nat} (hd : 0 < d) (hm : m ≤ infMag f) (h : n = quanta f m * d) :
    roundRatio f n d = m := by
  rw [h, roundRatio_quanta f m hd, Nat.min_eq_left hm]

/-- Rounding a quotient below a representable bound stays below it (R105 and R110 rest on it). -/
theorem roundRatio_le {f : FpFormat} {m n d : Nat} (hd : 0 < d) (hm : m ≤ infMag f) (h : n ≤ quanta f m * d) :
    roundRatio f n d ≤ m := by
  have := roundRatio_mono (f := f) hd h
  rwa [roundRatio_quanta f m hd, Nat.min_eq_left hm] at this

/-- The product of finite values, rounded once. -/
theorem fmul_finite {f : FpFormat} {a b : Nat} (s t : Bool) (ha : a < infMag f) (hb : b < infMag f) :
    fmul f (.val s a) (.val t b) = .val (s ^^ t) (roundRatio f (quanta f a * quanta f b) (unitQuanta f)) := by
  simp only [fmul]
  rw [if_neg (by omega), if_neg (by omega)]

/-- The quotient of finite values, rounded once. -/
theorem fdiv_finite {f : FpFormat} {a b : Nat} (s t : Bool) (ha : a < infMag f) (hb : b < infMag f) (h0 : b ≠ 0) :
    fdiv f (.val s a) (.val t b) = .val (s ^^ t) (roundRatio f (quanta f a * unitQuanta f) (quanta f b)) := by
  simp only [fdiv]
  rw [if_neg (by omega), if_neg (by omega), if_neg (by omega)]

end Sys2Proof.Machine
end

