-- ==== Sys2Proof/Laws/Monotone.lean ====
section
/-! SUPPORT. Sys2Proof/Laws/Monotone.lean: the monotonicity of the conversion (42_conversion_engine rule R116), from the rule's
own three reasons: `fp` is increasing, `fdiv` by a positive constant and `fmul` by a positive value are non-decreasing. At VREF
the order is strict, because three roundings together move a result by less than one code does. -/

namespace Sys2Proof.Machine

/-! ### The relative error of one rounding -/

/-- A rounded value that is neither subnormal nor infinite is within one part in `2 ^ (fracBits + 1)` of the exact one. -/
theorem roundRatio_relative {f : FpFormat} {n d : Nat} (hd : 0 < d) (hn : 2 ^ f.fracBits * d ≤ n)
    (hr : roundRatio f n d < infMag f) :
    2 ^ (f.fracBits + 1) * (d * quanta f (roundRatio f n d)) ≤ n * (2 ^ (f.fracBits + 1) + 1) ∧
      n * 2 ^ (f.fracBits + 1) ≤ 2 ^ (f.fracBits + 1) * (d * quanta f (roundRatio f n d)) + n := by
  have hmin : roundRatio f n d = roundShift f n d * 2 ^ f.fracBits + roundDiv n (d * 2 ^ roundShift f n d) := by
    unfold roundRatio at hr ⊢; omega
  obtain ⟨hlo, hhi⟩ := significand_bounds (f := f) (n := n) hd
  have hfull : 2 ^ f.fracBits * (d * 2 ^ roundShift f n d) ≤ n := by
    rcases (quotient_bounds (f := f) (n := n) hd).1 with h0 | h
    · simpa [h0] using hn
    · exact h
  obtain ⟨hup, hdown⟩ := roundDiv_near (n := n) (Nat.mul_pos hd (Nat.two_pow_pos (roundShift f n d)))
  rw [hmin, quanta_pack hlo hhi, Nat.pow_succ]
  generalize roundDiv n (d * 2 ^ roundShift f n d) = q at *
  generalize 2 ^ roundShift f n d = S at *
  generalize 2 ^ f.fracBits = B at *
  have e : B * 2 * (d * (q * S)) = B * (2 * (q * (d * S))) := by ring
  have h1 := Nat.mul_le_mul_left B hup
  have h2 := Nat.mul_le_mul_left B hdown
  constructor
  · calc _ ≤ B * (2 * n + d * S) := by rw [e]; exact h1
      _ = n * (B * 2) + B * (d * S) := by ring
      _ ≤ n * (B * 2) + n := Nat.add_le_add_left hfull _
      _ = _ := by ring
  · calc n * (B * 2) = B * (2 * n) := by ring
      _ ≤ B * (2 * (q * (d * S)) + d * S) := h2
      _ = B * 2 * (d * (q * S)) + B * (d * S) := by ring
      _ ≤ _ := Nat.add_le_add_left hfull _

/-! ### The magnitude of a conversion, rounding by rounding -/

/-- The magnitude field of `fp(n)`. -/
def intMag (f : FpFormat) (n : Nat) : Nat := roundRatio f (n * unitQuanta f) 1

/-- The magnitude field of `fdiv(fp(n), fp(c))`. -/
def ratioMag (f : FpFormat) (c n : Nat) : Nat :=
  roundRatio f (quanta f (intMag f n) * unitQuanta f) (quanta f (intMag f c))

/-- The magnitude field of `fmul(fdiv(fp(n), fp(c)), m)`. -/
def scaledMag (f : FpFormat) (c m n : Nat) : Nat :=
  roundRatio f (quanta f (ratioMag f c n) * quanta f m) (unitQuanta f)

/-- `fp` is non-decreasing (R116). -/
theorem intMag_mono {f : FpFormat} {n n' : Nat} (h : n ≤ n') : intMag f n ≤ intMag f n' :=
  roundRatio_mono (by decide) (Nat.mul_le_mul_right _ h)

/-- `fdiv` by a positive constant is non-decreasing (R116). -/
theorem ratioMag_mono {f : FpFormat} {c n n' : Nat} (hc : 0 < quanta f (intMag f c)) (h : n ≤ n') :
    ratioMag f c n ≤ ratioMag f c n' :=
  roundRatio_mono hc (Nat.mul_le_mul_right _ ((quanta_strictMono f).monotone (intMag_mono h)))

/-- `fmul` by a positive value is non-decreasing (R116). -/
theorem scaledMag_mono {f : FpFormat} {c m n n' : Nat} (hc : 0 < quanta f (intMag f c)) (h : n ≤ n') :
    scaledMag f c m n ≤ scaledMag f c m n' :=
  roundRatio_mono (unitQuanta_pos f) (Nat.mul_le_mul_right _ ((quanta_strictMono f).monotone (ratioMag_mono hc h)))

/-- Code 0 gives 0. -/
theorem scaledMag_zero {f : FpFormat} {c m : Nat} (hc : 0 < quanta f (intMag f c)) : scaledMag f c m 0 = 0 := by
  have ha : intMag f 0 = 0 := roundRatio_exact (by decide) (Nat.zero_le _) (by simp)
  have hq : ratioMag f c 0 = 0 := roundRatio_exact hc (Nat.zero_le _) (by simp [ha])
  exact roundRatio_exact (unitQuanta_pos f) (Nat.zero_le _) (by simp [hq])

/-- The two constants the block divides codes by are positive and finite in both formats. -/
theorem intMag_scale (x : Fp) {c : Nat} (hc : c = 4095 ∨ c = 2047) :
    0 < quanta x.format (intMag x.format c) ∧ intMag x.format c < infMag x.format ∧ intMag x.format c ≠ 0 := by
  rcases format_cases x with h | h <;> rcases hc with rfl | rfl <;> rw [h] <;> decide +kernel

/-- A code over its scale is at most 1.0. -/
theorem ratioMag_le_one (x : Fp) {c n : Nat} (hc : c = 4095 ∨ c = 2047) (h : n ≤ c) :
    ratioMag x.format c n ≤ oneMag x.format := by
  refine (ratioMag_mono (intMag_scale x hc).1 h).trans (le_of_eq ?_)
  rw [ratioMag, roundRatio_same (intMag_scale x hc).1]

/-- `fdiv(fp(n), fp(c))` in sign and magnitude. -/
theorem fdiv_fpOfNat (x : Fp) {c n : Nat} (hc : c = 4095 ∨ c = 2047) (h : n ≤ c) :
    fdiv x.format (fpOfNat x.format n) (fpOfNat x.format c) = .val false (ratioMag x.format c n) :=
  fdiv_finite false false ((intMag_mono h).trans_lt (intMag_scale x hc).2.1) (intMag_scale x hc).2.1 (intMag_scale x hc).2.2

/-- `+1.0` and `-1.0` in sign and magnitude. -/
theorem signUnit_eq (x : Fp) (neg : Bool) : signUnit x.format neg = .val neg (oneMag x.format) := by
  have h : intMag x.format 1 = oneMag x.format := by
    rcases format_cases x with h | h <;> rw [h] <;> decide +kernel
  rw [← h]; rfl

/-- A product with 1.0 is exact. -/
theorem roundRatio_one_mul (x : Fp) {m : Nat} (h : m ≤ infMag x.format) :
    roundRatio x.format (quanta x.format (oneMag x.format) * quanta x.format m) (unitQuanta x.format) = m :=
  roundRatio_exact (unitQuanta_pos _) h (by rw [(quanta_one x).1]; ring)

/-! ### Strictness at VREF -/

/-- What strictness needs of a format, a scale and a reference: no rounding of a code from 1 to `c` is subnormal or overflows. -/
def codesAreNormal (f : FpFormat) (c m : Nat) : Bool :=
  2 ^ f.fracBits ≤ unitQuanta f ∧ 2 ^ f.fracBits * quanta f (intMag f c) ≤ quanta f (intMag f 1) * unitQuanta f ∧
    2 ^ f.fracBits * unitQuanta f ≤ quanta f (ratioMag f c 1) * quanta f m ∧ intMag f c < infMag f ∧
    ratioMag f c c < infMag f ∧ scaledMag f c m c < infMag f ∧ 0 < quanta f (intMag f c)

/-- Three roundings, each within one part in `P`, keep `n / c < n' / c` apart when `n` is small against `P`. -/
theorem three_roundings_lt {P U C M A A' Q Q' V V' n n' : Nat} (hP : 24 * 1024 < P) (hU : 0 < U) (hM : 0 < M)
    (hn : n < n') (hn' : n' ≤ 4095)
    (ha : P * A ≤ n * U * (P + 1)) (ha' : n' * U * P ≤ P * A' + n' * U)
    (hq : P * (C * Q) ≤ A * U * (P + 1)) (hq' : A' * U * P ≤ P * (C * Q') + A' * U)
    (hv : P * (U * V) ≤ Q * M * (P + 1)) (hv' : Q' * M * P ≤ P * (U * V') + Q' * M) : V < V' := by
  by_contra hle
  obtain ⟨p, rfl⟩ : ∃ p, P = p + 1 := ⟨P - 1, by omega⟩
  have hvv : (p + 1) * (U * V') ≤ (p + 1) * (U * V) := Nat.mul_le_mul_left _ (Nat.mul_le_mul_left _ (by omega))
  have h1 : M * (Q' * p) ≤ M * (Q * (p + 2)) := by nlinarith
  have h1' := Nat.le_of_mul_le_mul_left h1 hM
  have h2 : A' * U * p ≤ (p + 1) * (C * Q') := by nlinarith
  have h3 : U * (A' * p * p) ≤ U * (A * (p + 2) * (p + 2)) := by
    calc U * (A' * p * p) = A' * U * p * p := by ring
      _ ≤ (p + 1) * (C * Q') * p := Nat.mul_le_mul_right _ h2
      _ = (p + 1) * C * (Q' * p) := by ring
      _ ≤ (p + 1) * C * (Q * (p + 2)) := Nat.mul_le_mul_left _ h1'
      _ = (p + 1) * (C * Q) * (p + 2) := by ring
      _ ≤ A * U * (p + 1 + 1) * (p + 2) := Nat.mul_le_mul_right _ hq
      _ = _ := by ring
  have h3' := Nat.le_of_mul_le_mul_left h3 hU
  have h4 : n' * U * p ≤ (p + 1) * A' := by nlinarith
  have h5 : U * (n' * p * p * p) ≤ U * (n * (p + 2) * (p + 2) * (p + 2)) := by
    calc U * (n' * p * p * p) = n' * U * p * p * p := by ring
      _ ≤ (p + 1) * A' * p * p := Nat.mul_le_mul_right _ (Nat.mul_le_mul_right _ h4)
      _ = (p + 1) * (A' * p * p) := by ring
      _ ≤ (p + 1) * (A * (p + 2) * (p + 2)) := Nat.mul_le_mul_left _ h3'
      _ = (p + 1) * A * (p + 2) * (p + 2) := by ring
      _ ≤ n * U * (p + 1 + 1) * (p + 2) * (p + 2) := Nat.mul_le_mul_right _ (Nat.mul_le_mul_right _ ha)
      _ = _ := by ring
  have h5' := Nat.le_of_mul_le_mul_left h5 hU
  have h6 : (n + 1) * p * p * p ≤ n' * p * p * p := by gcongr; omega
  have h7 : p * p * p ≤ 4094 * (6 * (p * p) + 12 * p + 8) := by
    calc p * p * p ≤ n * (6 * (p * p) + 12 * p + 8) := by nlinarith
      _ ≤ _ := Nat.mul_le_mul_right _ (by omega)
  nlinarith

/-- Where every code is normal, a larger code has a larger magnitude. -/
theorem scaledMag_strict {f : FpFormat} {c m n n' : Nat} (h : codesAreNormal f c m = true) (hP : 24 * 1024 < 2 ^ (f.fracBits + 1))
    (hn : n < n') (hn' : n' ≤ c) (hc : c ≤ 4095) : scaledMag f c m n < scaledMag f c m n' := by
  simp only [codesAreNormal, decide_eq_true_eq] at h
  obtain ⟨hi, hr, hs, hia, hra, hsa, hc0⟩ := h
  have hU := unitQuanta_pos f
  have hB : 0 < 2 ^ f.fracBits := Nat.two_pow_pos _
  have hmono := (quanta_strictMono f).monotone
  have hM : 0 < quanta f m := by
    rcases Nat.eq_zero_or_pos (quanta f m) with h0 | h0
    · rw [h0, Nat.mul_zero] at hs; have := Nat.mul_pos hB hU; omega
    · exact h0
  have hint : ∀ k, 1 ≤ k → k ≤ c → _ := fun k hk hkc =>
    roundRatio_relative (f := f) (n := k * unitQuanta f) (d := 1) (by decide)
      (by rw [Nat.mul_one]; exact hi.trans (Nat.le_mul_of_pos_left _ hk)) ((intMag_mono hkc).trans_lt hia)
  have hrat : ∀ k, 1 ≤ k → k ≤ c → _ := fun k hk hkc =>
    roundRatio_relative (f := f) (n := quanta f (intMag f k) * unitQuanta f) hc0
      (hr.trans (Nat.mul_le_mul_right _ (hmono (intMag_mono hk)))) ((ratioMag_mono hc0 hkc).trans_lt hra)
  have hsc : ∀ k, 1 ≤ k → k ≤ c → _ := fun k hk hkc =>
    roundRatio_relative (f := f) (n := quanta f (ratioMag f c k) * quanta f m) hU
      (hs.trans (Nat.mul_le_mul_right _ (hmono (ratioMag_mono hc0 hk)))) ((scaledMag_mono hc0 hkc).trans_lt hsa)
  apply (quanta_strictMono f).lt_iff_lt.1
  rcases Nat.eq_zero_or_pos n with rfl | hpos
  · rw [scaledMag_zero hc0, quanta_zero]
    by_contra hz
    have hlow := (hsc n' hn hn').2
    have hq1 := hs.trans (Nat.mul_le_mul_right (quanta f m) (hmono (ratioMag_mono (c := c) hc0 hn)))
    have hpos' := (Nat.mul_pos hB hU).trans_le hq1
    rw [show quanta f (roundRatio f _ _) = 0 from Nat.eq_zero_of_not_pos hz, Nat.mul_zero, Nat.mul_zero, Nat.zero_add] at hlow
    nlinarith
  · have ha := hint n hpos (by omega)
    have ha' := hint n' (by omega) hn'
    rw [Nat.one_mul] at ha ha'
    exact three_roundings_lt hP hU hM hn (hn'.trans hc) ha.1 ha'.2 (hrat n hpos (by omega)).1
      (hrat n' (by omega) hn').2 (hsc n hpos (by omega)).1 (hsc n' (by omega) hn').2

/-- Half of VREF, in magnitude. -/
def halfVrefMag (x : Fp) : Nat :=
  match x with
  | .b32 _ => 0x4003126F
  | .b64 _ => 0x4000624DD2F1A9FC

/-- The effective reference of VREF is its half, in both formats (R107, R112). -/
theorem effectiveRef_vref (x : Fp) : effectiveRef x.format (fpVal (vrefLike x)) = .val false (halfVrefMag x) := by
  cases x with
  | b32 v => exact (by decide +kernel : effectiveRef .binary32 (fpVal Config.vref32) = .val false 0x4003126F)
  | b64 v => exact (by decide +kernel : effectiveRef .binary64 (fpVal Config.vref64) = .val false 0x4000624DD2F1A9FC)

/-- At VREF every code is normal, unipolar and bipolar, in both formats. -/
theorem vref_codesAreNormal (x : Fp) : codesAreNormal x.format 4095 (fpMag (vrefLike x)) = true ∧
    codesAreNormal x.format 2047 (halfVrefMag x) = true ∧ 24 * 1024 < 2 ^ (x.format.fracBits + 1) := by
  cases x with
  | b32 v => exact (by decide +kernel : codesAreNormal .binary32 4095 (fpMag Config.vref32) = true ∧
      codesAreNormal .binary32 2047 0x4003126F = true ∧ 24 * 1024 < 2 ^ (FpFormat.binary32.fracBits + 1))
  | b64 v => exact (by decide +kernel : codesAreNormal .binary64 4095 (fpMag Config.vref64) = true ∧
      codesAreNormal .binary64 2047 0x4000624DD2F1A9FC = true ∧ 24 * 1024 < 2 ^ (FpFormat.binary64.fracBits + 1))

/-! ### The two conversions -/

/-- TOVOLT.UNI of a finite reference, in sign and magnitude (R104). -/
theorem unipolarVolt_finite (x : Fp) (u : Code) (h : isFinite x) :
    unipolarVolt x.format u (fpVal x) = .val (fpNeg x) (scaledMag x.format 4095 (fpMag x) u.toNat) := by
  have hu : u.toNat ≤ 4095 := by have := u.isLt; omega
  rw [unipolarVolt, fdiv_fpOfNat x (.inl rfl) hu, fpVal_of_le (le_of_lt h),
    fmul_finite _ _ ((ratioMag_le_one x (.inl rfl) hu).trans_lt (quanta_one x).2) h, Bool.false_xor]
  rfl

/-- TOVOLT.BIP with a finite effective reference, in sign and magnitude (R107). -/
theorem bipolarVolt_finite (x : Fp) (s : BitVec 1) (mag : BitVec 11) {v : FpVal} {neg : Bool} {e : Nat}
    (he : effectiveRef x.format v = .val neg e) (h : e < infMag x.format) :
    bipolarVolt x.format s mag v = .val (bipolarNeg s mag ^^ neg) (scaledMag x.format 2047 e mag.toNat) := by
  have hm : mag.toNat ≤ 2047 := by have := mag.isLt; omega
  have hq := (ratioMag_le_one x (.inr rfl) hm).trans_lt (quanta_one x).2
  rw [bipolarVolt, fdiv_fpOfNat x (.inr rfl) hm, signUnit_eq, fmul_finite _ _ (quanta_one x).2 hq,
    roundRatio_one_mul x hq.le, Bool.xor_false, he, fmul_finite _ _ hq h]
  rfl

/-- R116 for TOVOLT.UNI: for positive finite `vref` the result does not decrease with the code, and at VREF it increases. -/
theorem unipolarVolt_mono (x : Fp) (u u' : Code) (hx : isPositiveFinite x) (hu : u.toNat ≤ u'.toNat) :
    ∃ m m', unipolarVolt x.format u (fpVal x) = .val false m ∧ unipolarVolt x.format u' (fpVal x) = .val false m' ∧
      m ≤ m' ∧ (x = vrefLike x → u.toNat < u'.toNat → m < m') := by
  refine ⟨_, _, hx.1 ▸ unipolarVolt_finite x u hx.2.2, hx.1 ▸ unipolarVolt_finite x u' hx.2.2,
    scaledMag_mono (intMag_scale x (.inl rfl)).1 hu, fun hv hlt => ?_⟩
  have hn := vref_codesAreNormal x
  rw [← hv] at hn
  exact scaledMag_strict hn.1 hn.2.2 hlt (by have := u'.isLt; omega) le_rfl

/-- R116 for TOVOLT.BIP: with a positive finite effective reference the magnitude of the result does not decrease with `mag`,
and at VREF it increases; the sign is that of the code, so with `s = 1` the order of the results is the reverse. -/
theorem bipolarVolt_mono (x : Fp) (s : BitVec 1) (mag mag' : BitVec 11) {e : Nat}
    (he : effectiveRef x.format (fpVal x) = .val false e) (h : e < infMag x.format) (hm : mag.toNat ≤ mag'.toNat) :
    ∃ m m', bipolarVolt x.format s mag (fpVal x) = .val (bipolarNeg s mag) m ∧
      bipolarVolt x.format s mag' (fpVal x) = .val (bipolarNeg s mag') m' ∧
      m ≤ m' ∧ (x = vrefLike x → mag.toNat < mag'.toNat → m < m') := by
  refine ⟨_, _, by simpa using bipolarVolt_finite x s mag he h, by simpa using bipolarVolt_finite x s mag' he h,
    scaledMag_mono (intMag_scale x (.inr rfl)).1 hm, fun hv hlt => ?_⟩
  have hn := vref_codesAreNormal x
  have hh := effectiveRef_vref x
  rw [← hv, he] at hh
  obtain rfl : e = halfVrefMag x := by simpa using hh
  exact scaledMag_strict hn.2.1 hn.2.2 hlt (by have := mag'.isLt; omega) (by decide)

end Sys2Proof.Machine
end

