-- ==== Sys2Proof/Laws/State.lean ====
section
/-! SUPPORT. Sys2Proof/Laws/State.lean: what each update of the state does to each field, so that no later proof unfolds a
record update. -/

namespace Sys2Proof.Machine

variable (s : State)

/-! ### `goto` -/

@[simp] theorem State.goto_handle (p : Point) : (s.goto p).handle = s.handle := rfl
@[simp] theorem State.goto_i (p : Point) : (s.goto p).i = s.i := rfl
@[simp] theorem State.goto_cmd (p : Point) : (s.goto p).cmd = s.cmd := rfl
@[simp] theorem State.goto_k (p : Point) : (s.goto p).k = s.k := rfl
@[simp] theorem State.goto_last (p : Point) : (s.goto p).last = s.last := rfl
@[simp] theorem State.goto_reports (p : Point) : (s.goto p).reports = s.reports := rfl
@[simp] theorem State.goto_status (p : Point) : (s.goto p).status = s.status := rfl
@[simp] theorem State.goto_vref (p : Point) : (s.goto p).vref = s.vref := rfl
@[simp] theorem State.goto_call (p : Point) : (s.goto p).call = s.call := rfl
@[simp] theorem State.goto_params (p : Point) : (s.goto p).params = s.params := rfl
@[simp] theorem State.goto_oracle (p : Point) : (s.goto p).oracle = s.oracle := rfl
@[simp] theorem State.goto_pending (p : Point) : (s.goto p).pending = s.pending := rfl
@[simp] theorem State.goto_trace (p : Point) : (s.goto p).trace = s.trace := rfl
@[simp] theorem State.goto_draws (p : Point) : (s.goto p).draws = s.draws := rfl
@[simp] theorem State.goto_point (p : Point) : (s.goto p).point = p := rfl

/-! ### `setCmd` -/

@[simp] theorem State.setCmd_handle (w : Byte) : (s.setCmd w).handle = s.handle := rfl
@[simp] theorem State.setCmd_i (w : Byte) : (s.setCmd w).i = s.i := rfl
@[simp] theorem State.setCmd_cmd (w : Byte) : (s.setCmd w).cmd = w := rfl
@[simp] theorem State.setCmd_k (w : Byte) : (s.setCmd w).k = s.k := rfl
@[simp] theorem State.setCmd_last (w : Byte) : (s.setCmd w).last = s.last := rfl
@[simp] theorem State.setCmd_reports (w : Byte) : (s.setCmd w).reports = s.reports := rfl
@[simp] theorem State.setCmd_status (w : Byte) : (s.setCmd w).status = s.status := rfl
@[simp] theorem State.setCmd_vref (w : Byte) : (s.setCmd w).vref = s.vref := rfl
@[simp] theorem State.setCmd_call (w : Byte) : (s.setCmd w).call = s.call := rfl
@[simp] theorem State.setCmd_params (w : Byte) : (s.setCmd w).params = s.params := rfl
@[simp] theorem State.setCmd_oracle (w : Byte) : (s.setCmd w).oracle = s.oracle := rfl
@[simp] theorem State.setCmd_pending (w : Byte) : (s.setCmd w).pending = s.pending := rfl
@[simp] theorem State.setCmd_trace (w : Byte) : (s.setCmd w).trace = s.trace := rfl
@[simp] theorem State.setCmd_draws (w : Byte) : (s.setCmd w).draws = s.draws := rfl
@[simp] theorem State.setCmd_point (w : Byte) : (s.setCmd w).point = s.point := rfl

/-! ### `takeVolt` -/

@[simp] theorem State.takeVolt_handle (v : FpVal) : (s.takeVolt v).handle = s.handle := rfl
@[simp] theorem State.takeVolt_i (v : FpVal) : (s.takeVolt v).i = s.i := rfl
@[simp] theorem State.takeVolt_cmd (v : FpVal) : (s.takeVolt v).cmd = s.cmd := rfl
@[simp] theorem State.takeVolt_k (v : FpVal) : (s.takeVolt v).k = s.k := rfl
@[simp] theorem State.takeVolt_last (v : FpVal) : (s.takeVolt v).last = some (voltDatum s v) := rfl
@[simp] theorem State.takeVolt_reports (v : FpVal) : (s.takeVolt v).reports = s.reports := rfl
@[simp] theorem State.takeVolt_status (v : FpVal) : (s.takeVolt v).status = s.status := rfl
@[simp] theorem State.takeVolt_vref (v : FpVal) : (s.takeVolt v).vref = s.vref := rfl
@[simp] theorem State.takeVolt_call (v : FpVal) : (s.takeVolt v).call = s.call := rfl
@[simp] theorem State.takeVolt_params (v : FpVal) : (s.takeVolt v).params = s.params := rfl
@[simp] theorem State.takeVolt_oracle (v : FpVal) : (s.takeVolt v).oracle = s.oracle := rfl
@[simp] theorem State.takeVolt_pending (v : FpVal) : (s.takeVolt v).pending = s.pending := rfl
@[simp] theorem State.takeVolt_trace (v : FpVal) : (s.takeVolt v).trace = s.trace := rfl
@[simp] theorem State.takeVolt_draws (v : FpVal) : (s.takeVolt v).draws = if v = .nan then s.draws + 1 else s.draws := rfl
@[simp] theorem State.takeVolt_point (v : FpVal) : (s.takeVolt v).point = s.point := rfl

/-! ### `setHandle` -/

@[simp] theorem State.setHandle_handle (h : Handle) : (s.setHandle h).handle = h := rfl
@[simp] theorem State.setHandle_i (h : Handle) : (s.setHandle h).i = s.i := rfl
@[simp] theorem State.setHandle_cmd (h : Handle) : (s.setHandle h).cmd = s.cmd := rfl
@[simp] theorem State.setHandle_k (h : Handle) : (s.setHandle h).k = s.k := rfl
@[simp] theorem State.setHandle_last (h : Handle) : (s.setHandle h).last = s.last := rfl
@[simp] theorem State.setHandle_reports (h : Handle) : (s.setHandle h).reports = s.reports := rfl
@[simp] theorem State.setHandle_status (h : Handle) : (s.setHandle h).status = s.status := rfl
@[simp] theorem State.setHandle_vref (h : Handle) : (s.setHandle h).vref = s.vref := rfl
@[simp] theorem State.setHandle_call (h : Handle) : (s.setHandle h).call = s.call := rfl
@[simp] theorem State.setHandle_params (h : Handle) : (s.setHandle h).params = s.params := rfl
@[simp] theorem State.setHandle_oracle (h : Handle) : (s.setHandle h).oracle = s.oracle := rfl
@[simp] theorem State.setHandle_pending (h : Handle) : (s.setHandle h).pending = s.pending := rfl
@[simp] theorem State.setHandle_trace (h : Handle) : (s.setHandle h).trace = s.trace := rfl
@[simp] theorem State.setHandle_draws (h : Handle) : (s.setHandle h).draws = s.draws := rfl
@[simp] theorem State.setHandle_point (h : Handle) : (s.setHandle h).point = s.point := rfl

/-! ### `firstChannel` -/

@[simp] theorem State.firstChannel_handle : s.firstChannel.handle = s.handle := rfl
@[simp] theorem State.firstChannel_i : s.firstChannel.i = 0 := rfl
@[simp] theorem State.firstChannel_cmd : s.firstChannel.cmd = s.cmd := rfl
@[simp] theorem State.firstChannel_k : s.firstChannel.k = s.k := rfl
@[simp] theorem State.firstChannel_last : s.firstChannel.last = s.last := rfl
@[simp] theorem State.firstChannel_reports : s.firstChannel.reports = s.reports := rfl
@[simp] theorem State.firstChannel_status : s.firstChannel.status = s.status := rfl
@[simp] theorem State.firstChannel_vref : s.firstChannel.vref = s.vref := rfl
@[simp] theorem State.firstChannel_call : s.firstChannel.call = s.call := rfl
@[simp] theorem State.firstChannel_params : s.firstChannel.params = s.params := rfl
@[simp] theorem State.firstChannel_oracle : s.firstChannel.oracle = s.oracle := rfl
@[simp] theorem State.firstChannel_pending : s.firstChannel.pending = s.pending := rfl
@[simp] theorem State.firstChannel_trace : s.firstChannel.trace = s.trace := rfl
@[simp] theorem State.firstChannel_draws : s.firstChannel.draws = s.draws := rfl
@[simp] theorem State.firstChannel_point : s.firstChannel.point = s.point := rfl

/-! ### `callChannel` -/

@[simp] theorem State.callChannel_handle : s.callChannel.handle = s.handle := rfl
@[simp] theorem State.callChannel_i : s.callChannel.i = s.i := rfl
@[simp] theorem State.callChannel_cmd : s.callChannel.cmd = s.cmd := rfl
@[simp] theorem State.callChannel_k : s.callChannel.k = s.k := rfl
@[simp] theorem State.callChannel_last : s.callChannel.last = s.last := rfl
@[simp] theorem State.callChannel_reports : s.callChannel.reports = s.reports := rfl
@[simp] theorem State.callChannel_status : s.callChannel.status = s.status := rfl
@[simp] theorem State.callChannel_vref : s.callChannel.vref = s.vref := rfl
@[simp] theorem State.callChannel_call : s.callChannel.call = sweepCall s.i := rfl
@[simp] theorem State.callChannel_params : s.callChannel.params = s.params := rfl
@[simp] theorem State.callChannel_oracle : s.callChannel.oracle = s.oracle := rfl
@[simp] theorem State.callChannel_pending : s.callChannel.pending = s.pending := rfl
@[simp] theorem State.callChannel_trace : s.callChannel.trace = s.trace := rfl
@[simp] theorem State.callChannel_draws : s.callChannel.draws = s.draws := rfl
@[simp] theorem State.callChannel_point : s.callChannel.point = s.point := rfl

/-! ### `driveVref` -/

@[simp] theorem State.driveVref_handle : s.driveVref.handle = s.handle := rfl
@[simp] theorem State.driveVref_i : s.driveVref.i = s.i := rfl
@[simp] theorem State.driveVref_cmd : s.driveVref.cmd = s.cmd := rfl
@[simp] theorem State.driveVref_k : s.driveVref.k = s.k := rfl
@[simp] theorem State.driveVref_last : s.driveVref.last = s.last := rfl
@[simp] theorem State.driveVref_reports : s.driveVref.reports = s.reports := rfl
@[simp] theorem State.driveVref_status : s.driveVref.status = s.status := rfl
@[simp] theorem State.driveVref_vref : s.driveVref.vref = vrefLike s.vref := rfl
@[simp] theorem State.driveVref_call : s.driveVref.call = s.call := rfl
@[simp] theorem State.driveVref_params : s.driveVref.params = s.params := rfl
@[simp] theorem State.driveVref_oracle : s.driveVref.oracle = s.oracle := rfl
@[simp] theorem State.driveVref_pending : s.driveVref.pending = s.pending := rfl
@[simp] theorem State.driveVref_trace : s.driveVref.trace = s.trace := rfl
@[simp] theorem State.driveVref_draws : s.driveVref.draws = s.draws := rfl
@[simp] theorem State.driveVref_point : s.driveVref.point = s.point := rfl

/-! ### `startReads` -/

@[simp] theorem State.startReads_handle : s.startReads.handle = s.handle := rfl
@[simp] theorem State.startReads_i : s.startReads.i = s.i := rfl
@[simp] theorem State.startReads_cmd : s.startReads.cmd = s.cmd := rfl
@[simp] theorem State.startReads_k : s.startReads.k = max s.call.repeatCount 1 := rfl
@[simp] theorem State.startReads_last : s.startReads.last = none := rfl
@[simp] theorem State.startReads_reports : s.startReads.reports = s.reports := rfl
@[simp] theorem State.startReads_status : s.startReads.status = s.status := rfl
@[simp] theorem State.startReads_vref : s.startReads.vref = s.vref := rfl
@[simp] theorem State.startReads_call : s.startReads.call = s.call := rfl
@[simp] theorem State.startReads_params : s.startReads.params = s.params := rfl
@[simp] theorem State.startReads_oracle : s.startReads.oracle = s.oracle := rfl
@[simp] theorem State.startReads_pending : s.startReads.pending = s.pending := rfl
@[simp] theorem State.startReads_trace : s.startReads.trace = s.trace := rfl
@[simp] theorem State.startReads_draws : s.startReads.draws = s.draws := rfl
@[simp] theorem State.startReads_point : s.startReads.point = s.point := rfl

/-! ### `countRead` -/

@[simp] theorem State.countRead_handle : s.countRead.handle = s.handle := rfl
@[simp] theorem State.countRead_i : s.countRead.i = s.i := rfl
@[simp] theorem State.countRead_cmd : s.countRead.cmd = s.cmd := rfl
@[simp] theorem State.countRead_k : s.countRead.k = s.k - 1 := rfl
@[simp] theorem State.countRead_last : s.countRead.last = s.last := rfl
@[simp] theorem State.countRead_reports : s.countRead.reports = s.reports := rfl
@[simp] theorem State.countRead_status : s.countRead.status = s.status := rfl
@[simp] theorem State.countRead_vref : s.countRead.vref = s.vref := rfl
@[simp] theorem State.countRead_call : s.countRead.call = s.call := rfl
@[simp] theorem State.countRead_params : s.countRead.params = s.params := rfl
@[simp] theorem State.countRead_oracle : s.countRead.oracle = s.oracle := rfl
@[simp] theorem State.countRead_pending : s.countRead.pending = s.pending := rfl
@[simp] theorem State.countRead_trace : s.countRead.trace = s.trace := rfl
@[simp] theorem State.countRead_draws : s.countRead.draws = s.draws := rfl
@[simp] theorem State.countRead_point : s.countRead.point = s.point := rfl

/-! ### `report` -/

@[simp] theorem State.report_handle (v : Fp) : (s.report v).handle = s.handle := rfl
@[simp] theorem State.report_i (v : Fp) : (s.report v).i = s.i + 1 := rfl
@[simp] theorem State.report_cmd (v : Fp) : (s.report v).cmd = s.cmd := rfl
@[simp] theorem State.report_k (v : Fp) : (s.report v).k = s.k := rfl
@[simp] theorem State.report_last (v : Fp) : (s.report v).last = s.last := rfl
@[simp] theorem State.report_reports (v : Fp) : (s.report v).reports = s.reports ++ [(s.i, v)] := rfl
@[simp] theorem State.report_status (v : Fp) : (s.report v).status = s.status := rfl
@[simp] theorem State.report_vref (v : Fp) : (s.report v).vref = s.vref := rfl
@[simp] theorem State.report_call (v : Fp) : (s.report v).call = s.call := rfl
@[simp] theorem State.report_params (v : Fp) : (s.report v).params = s.params := rfl
@[simp] theorem State.report_oracle (v : Fp) : (s.report v).oracle = s.oracle := rfl
@[simp] theorem State.report_pending (v : Fp) : (s.report v).pending = s.pending := rfl
@[simp] theorem State.report_trace (v : Fp) : (s.report v).trace = s.trace := rfl
@[simp] theorem State.report_draws (v : Fp) : (s.report v).draws = s.draws := rfl
@[simp] theorem State.report_point (v : Fp) : (s.report v).point = s.point := rfl

/-! ### `issue` -/

@[simp] theorem State.issue_handle (c : BusCall) : (s.issue c).handle = s.handle := rfl
@[simp] theorem State.issue_i (c : BusCall) : (s.issue c).i = s.i := rfl
@[simp] theorem State.issue_cmd (c : BusCall) : (s.issue c).cmd = s.cmd := rfl
@[simp] theorem State.issue_k (c : BusCall) : (s.issue c).k = s.k := rfl
@[simp] theorem State.issue_last (c : BusCall) : (s.issue c).last = s.last := rfl
@[simp] theorem State.issue_reports (c : BusCall) : (s.issue c).reports = s.reports := rfl
@[simp] theorem State.issue_status (c : BusCall) : (s.issue c).status = s.status := rfl
@[simp] theorem State.issue_vref (c : BusCall) : (s.issue c).vref = s.vref := rfl
@[simp] theorem State.issue_call (c : BusCall) : (s.issue c).call = s.call := rfl
@[simp] theorem State.issue_params (c : BusCall) : (s.issue c).params = s.params := rfl
@[simp] theorem State.issue_oracle (c : BusCall) : (s.issue c).oracle = s.oracle := rfl
@[simp] theorem State.issue_pending (c : BusCall) : (s.issue c).pending = some c := rfl
@[simp] theorem State.issue_trace (c : BusCall) : (s.issue c).trace = if s.pending = some c then s.trace else s.trace ++ [c] := rfl
@[simp] theorem State.issue_draws (c : BusCall) : (s.issue c).draws = s.draws := rfl
@[simp] theorem State.issue_point (c : BusCall) : (s.issue c).point = s.point := rfl

/-! ### `answered` -/

@[simp] theorem State.answered_handle (o : Oracle) : (s.answered o).handle = s.handle := rfl
@[simp] theorem State.answered_i (o : Oracle) : (s.answered o).i = s.i := rfl
@[simp] theorem State.answered_cmd (o : Oracle) : (s.answered o).cmd = s.cmd := rfl
@[simp] theorem State.answered_k (o : Oracle) : (s.answered o).k = s.k := rfl
@[simp] theorem State.answered_last (o : Oracle) : (s.answered o).last = s.last := rfl
@[simp] theorem State.answered_reports (o : Oracle) : (s.answered o).reports = s.reports := rfl
@[simp] theorem State.answered_status (o : Oracle) : (s.answered o).status = s.status := rfl
@[simp] theorem State.answered_vref (o : Oracle) : (s.answered o).vref = s.vref := rfl
@[simp] theorem State.answered_call (o : Oracle) : (s.answered o).call = s.call := rfl
@[simp] theorem State.answered_params (o : Oracle) : (s.answered o).params = s.params := rfl
@[simp] theorem State.answered_oracle (o : Oracle) : (s.answered o).oracle = o := rfl
@[simp] theorem State.answered_pending (o : Oracle) : (s.answered o).pending = none := rfl
@[simp] theorem State.answered_trace (o : Oracle) : (s.answered o).trace = s.trace := rfl
@[simp] theorem State.answered_draws (o : Oracle) : (s.answered o).draws = s.draws := rfl
@[simp] theorem State.answered_point (o : Oracle) : (s.answered o).point = s.point := rfl

/-! ### `close` -/

@[simp] theorem State.close_handle : s.close.handle = .closed := rfl
@[simp] theorem State.close_i : s.close.i = s.i := rfl
@[simp] theorem State.close_cmd : s.close.cmd = s.cmd := rfl
@[simp] theorem State.close_k : s.close.k = s.k := rfl
@[simp] theorem State.close_last : s.close.last = s.last := rfl
@[simp] theorem State.close_reports : s.close.reports = s.reports := rfl
@[simp] theorem State.close_status : s.close.status = s.status := rfl
@[simp] theorem State.close_vref : s.close.vref = s.vref := rfl
@[simp] theorem State.close_call : s.close.call = s.call := rfl
@[simp] theorem State.close_params : s.close.params = s.params := rfl
@[simp] theorem State.close_oracle : s.close.oracle = s.oracle := rfl
@[simp] theorem State.close_pending : s.close.pending = s.pending := rfl
@[simp] theorem State.close_trace : s.close.trace = s.trace ++ [.close] := rfl
@[simp] theorem State.close_draws : s.close.draws = s.draws := rfl
@[simp] theorem State.close_point : s.close.point = s.point := rfl

/-! ### `dropReads` -/

@[simp] theorem State.dropReads_handle : s.dropReads.handle = s.handle := rfl
@[simp] theorem State.dropReads_i : s.dropReads.i = s.i := rfl
@[simp] theorem State.dropReads_cmd : s.dropReads.cmd = s.cmd := rfl
@[simp] theorem State.dropReads_k : s.dropReads.k = s.k := rfl
@[simp] theorem State.dropReads_last : s.dropReads.last = none := rfl
@[simp] theorem State.dropReads_reports : s.dropReads.reports = s.reports := rfl
@[simp] theorem State.dropReads_status : s.dropReads.status = s.status := rfl
@[simp] theorem State.dropReads_vref : s.dropReads.vref = s.vref := rfl
@[simp] theorem State.dropReads_call : s.dropReads.call = s.call := rfl
@[simp] theorem State.dropReads_params : s.dropReads.params = s.params := rfl
@[simp] theorem State.dropReads_oracle : s.dropReads.oracle = s.oracle := rfl
@[simp] theorem State.dropReads_pending : s.dropReads.pending = s.pending := rfl
@[simp] theorem State.dropReads_trace : s.dropReads.trace = s.trace := rfl
@[simp] theorem State.dropReads_draws : s.dropReads.draws = s.draws := rfl
@[simp] theorem State.dropReads_point : s.dropReads.point = s.point := rfl

/-! ### `raise` -/

@[simp] theorem State.raise_handle (e : ErrorKind) : (s.raise e).handle = s.handle := rfl
@[simp] theorem State.raise_i (e : ErrorKind) : (s.raise e).i = s.i := rfl
@[simp] theorem State.raise_cmd (e : ErrorKind) : (s.raise e).cmd = s.cmd := rfl
@[simp] theorem State.raise_k (e : ErrorKind) : (s.raise e).k = s.k := rfl
@[simp] theorem State.raise_last (e : ErrorKind) : (s.raise e).last = s.last := rfl
@[simp] theorem State.raise_reports (e : ErrorKind) : (s.raise e).reports = s.reports := rfl
@[simp] theorem State.raise_status (e : ErrorKind) : (s.raise e).status = s.status := rfl
@[simp] theorem State.raise_vref (e : ErrorKind) : (s.raise e).vref = s.vref := rfl
@[simp] theorem State.raise_call (e : ErrorKind) : (s.raise e).call = s.call := rfl
@[simp] theorem State.raise_params (e : ErrorKind) : (s.raise e).params = s.params := rfl
@[simp] theorem State.raise_oracle (e : ErrorKind) : (s.raise e).oracle = s.oracle := rfl
@[simp] theorem State.raise_pending (e : ErrorKind) : (s.raise e).pending = s.pending := rfl
@[simp] theorem State.raise_trace (e : ErrorKind) : (s.raise e).trace = s.trace := rfl
@[simp] theorem State.raise_draws (e : ErrorKind) : (s.raise e).draws = s.draws := rfl
@[simp] theorem State.raise_point (e : ErrorKind) : (s.raise e).point = .returned (.err e) := rfl

/-! ### `finish` -/

@[simp] theorem State.finish_handle (o : Status) : (s.finish o).handle = s.handle := rfl
@[simp] theorem State.finish_i (o : Status) : (s.finish o).i = s.i := rfl
@[simp] theorem State.finish_cmd (o : Status) : (s.finish o).cmd = s.cmd := rfl
@[simp] theorem State.finish_k (o : Status) : (s.finish o).k = s.k := rfl
@[simp] theorem State.finish_last (o : Status) : (s.finish o).last = s.last := rfl
@[simp] theorem State.finish_reports (o : Status) : (s.finish o).reports = s.reports := rfl
@[simp] theorem State.finish_status (o : Status) : (s.finish o).status = o := rfl
@[simp] theorem State.finish_vref (o : Status) : (s.finish o).vref = s.vref := rfl
@[simp] theorem State.finish_call (o : Status) : (s.finish o).call = s.call := rfl
@[simp] theorem State.finish_params (o : Status) : (s.finish o).params = s.params := rfl
@[simp] theorem State.finish_oracle (o : Status) : (s.finish o).oracle = s.oracle := rfl
@[simp] theorem State.finish_pending (o : Status) : (s.finish o).pending = s.pending := rfl
@[simp] theorem State.finish_trace (o : Status) : (s.finish o).trace = s.trace := rfl
@[simp] theorem State.finish_draws (o : Status) : (s.finish o).draws = s.draws := rfl
@[simp] theorem State.finish_point (o : Status) : (s.finish o).point = .ended := rfl

/-- A call that is already pending is issued no second time (R54). -/
theorem State.issue_of_pending {c : BusCall} (h : s.pending = some c) : s.issue c = s := by
  cases s; simp_all [State.issue]

end Sys2Proof.Machine
end

