-- ==== Sys2Proof/Laws/Operands.lean ====
section
/-! SUPPORT. Sys2Proof/Laws/Operands.lean: the bits of a command byte (30_encoding rules R61 to R64) and of a
frame and a code (R67, R69), from which the decoder's and the encoder's laws follow. -/

namespace Sys2Proof

/-- A pattern with a clear low nibble keeps its bits under the mask of a CMD8 row. -/
theorem commandByte_masked : ∀ (sel : Byte) (u : BitVec 1), sel &&& 0x0F#8 = 0#8 →
    commandByte sel u &&& commandMask = sel := by
  decide +kernel

/-- Bit 3 of a command byte is the polarity bit. -/
theorem polarityBit_commandByte : ∀ (sel : Byte) (u : BitVec 1), sel &&& 0x0F#8 = 0#8 →
    polarityBit (commandByte sel u) = u := by
  decide +kernel

/-- The bits of a byte are those under the mask and the polarity bit. -/
theorem commandByte_of_masked : ∀ w : Byte, commandByte (w &&& commandMask) (polarityBit w) = w := by
  decide +kernel

/-- The mode of a bit and the bit of a mode are inverse (R23). -/
@[simp] theorem PolarityMode.ofBit_bit (m : PolarityMode) : PolarityMode.ofBit m.bit = m := by cases m <;> decide

/-- The bit of the mode of a bit is that bit (R23). -/
theorem PolarityMode.bit_ofBit : ∀ b : BitVec 1, (PolarityMode.ofBit b).bit = b := by decide

/-- The number that two bit strings side by side denote. -/
theorem toNat_append_eq {n m : Nat} (x : BitVec n) (y : BitVec m) :
    (x ++ y).toNat = x.toNat * 2 ^ m + y.toNat := by
  rw [BitVec.toNat_append, ← Nat.shiftLeft_add_eq_or_of_lt y.isLt, Nat.shiftLeft_eq]

/-- Bits 15:8 of a frame are the byte received first (R67). -/
theorem frame_first (b0 b1 : Byte) : (b0 ++ b1).extractLsb' 8 8 = b0 := by
  have h0 := b0.isLt
  have h1 := b1.isLt
  apply BitVec.eq_of_toNat_eq
  rw [BitVec.extractLsb'_toNat, toNat_append_eq, Nat.shiftRight_eq_div_pow]
  omega

/-- Bits 7:0 of a frame are the byte received second (R67). -/
theorem frame_second (b0 b1 : Byte) : (b0 ++ b1).extractLsb' 0 8 = b1 := by
  have h0 := b0.isLt
  have h1 := b1.isLt
  apply BitVec.eq_of_toNat_eq
  rw [BitVec.extractLsb'_toNat, toNat_append_eq, Nat.shiftRight_eq_div_pow]
  omega

/-- Bits 15:4 of a frame are the first byte and the high nibble of the second (R49, R67). -/
theorem frame_code (b0 b1 : Byte) : (b0 ++ b1).extractLsb' 4 12 = b0 ++ b1.extractLsb' 4 4 := by
  have h0 := b0.isLt
  have h1 := b1.isLt
  apply BitVec.eq_of_toNat_eq
  rw [BitVec.extractLsb'_toNat, toNat_append_eq, toNat_append_eq, BitVec.extractLsb'_toNat,
    Nat.shiftRight_eq_div_pow, Nat.shiftRight_eq_div_pow]
  omega

/-- Bit 11 of a bipolar code is its sign (R69). -/
theorem code_sign (s : BitVec 1) (mag : BitVec 11) : (s ++ mag).extractLsb' 11 1 = s := by
  have h0 := s.isLt
  have h1 := mag.isLt
  apply BitVec.eq_of_toNat_eq
  rw [BitVec.extractLsb'_toNat, toNat_append_eq, Nat.shiftRight_eq_div_pow]
  omega

/-- Bits 10:0 of a bipolar code are its magnitude (R69). -/
theorem code_mag (s : BitVec 1) (mag : BitVec 11) : (s ++ mag).extractLsb' 0 11 = mag := by
  have h0 := s.isLt
  have h1 := mag.isLt
  apply BitVec.eq_of_toNat_eq
  rw [BitVec.extractLsb'_toNat, toNat_append_eq, Nat.shiftRight_eq_div_pow]
  omega

/-- The frame as shifted and OR'd (R48) is the two bytes side by side. -/
theorem Machine.frameOf_eq_append (b0 b1 : Byte) : Machine.frameOf b0 b1 = b0 ++ b1 := by
  have h0 := b0.isLt
  have h1 := b1.isLt
  apply BitVec.eq_of_toNat_eq
  rw [Machine.frameOf, BitVec.toNat_or, toNat_append_eq]
  simp only [BitVec.toNat_shiftLeft, BitVec.truncate_eq_setWidth, BitVec.toNat_setWidth]
  rw [Nat.mod_eq_of_lt (a := b0.toNat) (by omega), Nat.mod_eq_of_lt (a := b1.toNat) (by omega),
    Nat.mod_eq_of_lt (by rw [Nat.shiftLeft_eq]; omega), ← Nat.shiftLeft_add_eq_or_of_lt h1, Nat.shiftLeft_eq]

end Sys2Proof
end

