-- ==== Sys2Proof/Laws/Ops.lean ====
section
/-! SUPPORT. Sys2Proof/Laws/Ops.lean: for each bus call, what it does when the oracle has an answer and when it has none
(20_memory rules R44, R45, R54). The proofs cite these and unfold no call. -/

namespace Sys2Proof.Machine

variable {s : State}

/-- An unanswered `open` leaves the state with the call pending. -/
theorem callOpen_unanswered {g : OpenAnswer → State → Result} (h : s.oracle.opens = []) :
    callOpen s g = .next (s.issue (.openBus s.params.busPath)) := by
  simp [callOpen, h]

/-- An answered `open` goes on with the answer, the call no longer pending. -/
theorem callOpen_answered {g : OpenAnswer → State → Result} {a : OpenAnswer} {rest : List OpenAnswer}
    (h : s.oracle.opens = a :: rest) :
    callOpen s g =
      g a ((s.issue (.openBus s.params.busPath)).answered { s.oracle with opens := rest }) := by
  simp [callOpen, h]

/-- An unanswered `bind` leaves the state with the call pending. -/
theorem callBind_unanswered {g : BindAnswer → State → Result} (h : s.oracle.binds = []) :
    callBind s g = .next (s.issue (.bind Config.peer)) := by
  simp [callBind, h]

/-- An answered `bind` goes on with the answer, the call no longer pending. -/
theorem callBind_answered {g : BindAnswer → State → Result} {a : BindAnswer} {rest : List BindAnswer}
    (h : s.oracle.binds = a :: rest) :
    callBind s g = g a ((s.issue (.bind Config.peer)).answered { s.oracle with binds := rest }) := by
  simp [callBind, h]

/-- An unanswered `send` leaves the state with the call pending. -/
theorem memWrite_unanswered {w : Byte} {g : SendAnswer → State → Result} (h : s.oracle.sends = []) :
    memWrite w s g = .next (s.issue (.send [w])) := by
  simp [memWrite, h]

/-- An answered `send` goes on with the answer, the call no longer pending. -/
theorem memWrite_answered {w : Byte} {g : SendAnswer → State → Result} {a : SendAnswer} {rest : List SendAnswer}
    (h : s.oracle.sends = a :: rest) :
    memWrite w s g = g a ((s.issue (.send [w])).answered { s.oracle with sends := rest }) := by
  simp [memWrite, h]

/-- An unanswered `recv` leaves the state with the call pending. -/
theorem memRead_unanswered {g : RecvAnswer → State → Result} (h : s.oracle.recvs = []) :
    memRead s g = .next (s.issue (.recv 2)) := by
  simp [memRead, h]

/-- An answered `recv` goes on with the answer, the call no longer pending. -/
theorem memRead_answered {g : RecvAnswer → State → Result} {a : RecvAnswer} {rest : List RecvAnswer}
    (h : s.oracle.recvs = a :: rest) :
    memRead s g = g a ((s.issue (.recv 2)).answered { s.oracle with recvs := rest }) := by
  simp [memRead, h]

/-- The mode of a produced command byte is the mode asked for (R92), under a legal table. -/
theorem modeOf_encodeCommand {p : Params} (h : p.Legal) (chan : Nat) (mode : PolarityMode) :
    modeOf (encodeCommand p chan mode) = mode := by
  rw [modeOf, encodeCommand, polarityBit_commandByte _ _ (h.1.1 _), PolarityMode.ofBit_bit]

/-- A direct call at rest with the handle bound leads to its state. -/
theorem directCall_of_atRest {t : State} (hb : s.handle = .bound) (hr : atRest s = true) : directCall s t = .next t := by
  simp [directCall, hb, hr]

/-- A direct call elsewhere is refused. -/
theorem directCall_of_not_atRest {t : State} (hb : s.handle = .bound) (hr : atRest s = false) :
    directCall s t = .refused .notAtRest := by
  simp [directCall, hb, hr]

end Sys2Proof.Machine
end

