-- ==== Sys2Proof/Laws/PerInstr.lean ====
section
/-! SUPPORT. Sys2Proof/Laws/PerInstr.lean: per instruction, the bits of its word are those of its row of
spec/opcode_table.json (30_encoding rules R61, R67 to R69, R75). -/

namespace Sys2Proof.Laws

/-- The bits that a row of the opcode table gives a word: the channel-select pattern under the mask, `uni` at bit 3 and
zeros below it; the two bytes and the code of a frame; the fields of a code. -/
def rowBits (t : ChannelTable) : Instr → PortWord → Prop
  | .ch0 u, .cmd8 w => w &&& 0xF7#8 = t.sel 0 ∧ w.extractLsb' 3 1 = u ∧ w.extractLsb' 0 3 = 0
  | .ch1 u, .cmd8 w => w &&& 0xF7#8 = t.sel 1 ∧ w.extractLsb' 3 1 = u ∧ w.extractLsb' 0 3 = 0
  | .ch2 u, .cmd8 w => w &&& 0xF7#8 = t.sel 2 ∧ w.extractLsb' 3 1 = u ∧ w.extractLsb' 0 3 = 0
  | .ch3 u, .cmd8 w => w &&& 0xF7#8 = t.sel 3 ∧ w.extractLsb' 3 1 = u ∧ w.extractLsb' 0 3 = 0
  | .ch4 u, .cmd8 w => w &&& 0xF7#8 = t.sel 4 ∧ w.extractLsb' 3 1 = u ∧ w.extractLsb' 0 3 = 0
  | .ch5 u, .cmd8 w => w &&& 0xF7#8 = t.sel 5 ∧ w.extractLsb' 3 1 = u ∧ w.extractLsb' 0 3 = 0
  | .ch6 u, .cmd8 w => w &&& 0xF7#8 = t.sel 6 ∧ w.extractLsb' 3 1 = u ∧ w.extractLsb' 0 3 = 0
  | .ch7 u, .cmd8 w => w &&& 0xF7#8 = t.sel 7 ∧ w.extractLsb' 3 1 = u ∧ w.extractLsb' 0 3 = 0
  | .extract b0 b1, .frame16 w =>
    w.extractLsb' 8 8 = b0 ∧ w.extractLsb' 0 8 = b1 ∧ w.extractLsb' 4 12 = b0 ++ b1.extractLsb' 4 4
  | .tovoltUni u, .code12u w => w = u
  | .tovoltBip s mag, .code12b w => w.extractLsb' 11 1 = s ∧ w.extractLsb' 0 11 = mag
  | _, _ => False

/-- The word of an instruction has its row's format and bits, under every legal channel table. -/
def RowBits.Statement (i : Instr) : Prop := ∀ t : ChannelTable, t.Legal → rowBits t i (encode t i)

/-- What the eight command rows share. -/
theorem commandByte_rowBits : ∀ (sel : Byte) (u : BitVec 1), sel &&& 0x0F#8 = 0#8 →
    commandByte sel u &&& 0xF7#8 = sel ∧ (commandByte sel u).extractLsb' 3 1 = u ∧
      (commandByte sel u).extractLsb' 0 3 = 0 := by
  decide +kernel

theorem RowBits.ch0 (u : BitVec 1) : RowBits.Statement (.ch0 u) :=
  fun _ h => commandByte_rowBits _ u (h.1 0)

theorem RowBits.ch1 (u : BitVec 1) : RowBits.Statement (.ch1 u) :=
  fun _ h => commandByte_rowBits _ u (h.1 1)

theorem RowBits.ch2 (u : BitVec 1) : RowBits.Statement (.ch2 u) :=
  fun _ h => commandByte_rowBits _ u (h.1 2)

theorem RowBits.ch3 (u : BitVec 1) : RowBits.Statement (.ch3 u) :=
  fun _ h => commandByte_rowBits _ u (h.1 3)

theorem RowBits.ch4 (u : BitVec 1) : RowBits.Statement (.ch4 u) :=
  fun _ h => commandByte_rowBits _ u (h.1 4)

theorem RowBits.ch5 (u : BitVec 1) : RowBits.Statement (.ch5 u) :=
  fun _ h => commandByte_rowBits _ u (h.1 5)

theorem RowBits.ch6 (u : BitVec 1) : RowBits.Statement (.ch6 u) :=
  fun _ h => commandByte_rowBits _ u (h.1 6)

theorem RowBits.ch7 (u : BitVec 1) : RowBits.Statement (.ch7 u) :=
  fun _ h => commandByte_rowBits _ u (h.1 7)

theorem RowBits.extract (b0 b1 : Byte) : RowBits.Statement (.extract b0 b1) :=
  fun _ _ => ⟨frame_first b0 b1, frame_second b0 b1, frame_code b0 b1⟩

theorem RowBits.tovoltUni (u : Code) : RowBits.Statement (.tovoltUni u) := fun _ _ => rfl

theorem RowBits.tovoltBip (s : BitVec 1) (mag : BitVec 11) : RowBits.Statement (.tovoltBip s mag) :=
  fun _ _ => ⟨code_sign s mag, code_mag s mag⟩

end Sys2Proof.Laws
end

