-- ==== Sys2Proof/Tests/Slice0.lean ====
section
/-! SUPPORT. Sys2Proof/Tests/Slice0.lean: tests with expected results from spec/95_test_vectors.md (the vector is named) or
worked out by hand from a row of the opcode table, ill-formed terms for the checks of WellFormed.lean, and for each
statement with hypotheses a witness that meets them. -/

namespace Sys2Proof.Tests

open Sys2Proof Sys2Proof.Machine

/-! ### Helpers -/

/-- The result is a next state of which `p` holds. -/
def nextIs (r : Result) (p : State → Bool) : Bool :=
  match r with
  | .next t => p t
  | .fault _ => false
  | .refused _ => false

/-- The result is the refusal `why`. -/
def refusedIs (r : Result) (why : Refusal) : Bool :=
  match r with
  | .next _ => false
  | .fault _ => false
  | .refused w => w = why

/-- The start of a run at another control location, with a handle and the oracle's answers. -/
def busAt (p : Point) (h : Handle) (o : Oracle) : State := { State.reset with point := p, handle := h, oracle := o }

/-- An oracle that answers nothing. -/
def silent : Oracle := { opens := [], binds := [], sends := [], recvs := [] }

/-- A bound state with `cmd` on its port, whose write is answered by `a`. -/
def sendState (cmd : Byte) (a : SendAnswer) : State :=
  { busAt .sending .bound { silent with sends := [a] } with cmd := cmd }

/-- A bound state with one read to do, answered by `a`. -/
def recvState (a : RecvAnswer) : State :=
  { busAt .readLoop .bound { silent with recvs := [a] } with k := 1, cmd := 0x88 }

/-- The block with `vref` on its port. -/
def withVref (x : Fp) : State := { State.reset with vref := x }

/-- The voltage after a conversion has the pattern `bits`. -/
def voltIs (r : Result) (bits : Nat) : Bool := nextIs r fun t => t.last.map Fp.pattern = some bits

/-! ### Well-formedness: one ill-formed term for each check -/

theorem test_default_table_is_legal : Config.chselDefault.Legal := by decide

/-- R63: an entry with a bit in its low nibble. -/
theorem test_low_nibble_is_checked :
    ¬ ChannelTable.Legal ⟨#v[0x81, 0xC0, 0x90, 0xD0, 0xA0, 0xE0, 0xB0, 0xF0]⟩ := by decide

/-- R63: two equal entries. -/
theorem test_equal_entries_are_checked :
    ¬ ChannelTable.Legal ⟨#v[0x80, 0xC0, 0x90, 0xD0, 0xA0, 0xE0, 0xB0, 0x80]⟩ := by decide

/-- R15: CHANW is at least 3. -/
theorem test_narrow_channel_port_is_checked :
    ¬ { Config.paramsDefault with chanw := 2 }.Legal ∧ { Config.paramsDefault with chanw := 3 }.Legal := by decide

/-- R26: a code above 4095 cannot stand on its port, nor a number above 255 on the command port. -/
theorem test_wide_words_are_checked :
    portWord .code12u 4096 = .error (.wordTooWide .code12u 4096) ∧ Format.code12b.fits 4095 = true ∧
    portWord .cmd8 256 = .error (.wordTooWide .cmd8 256) ∧
    portWord .frame16 65536 = .error (.wordTooWide .frame16 65536) ∧
    decodeTableWord 12 4096 = none ∧ decodeTableWord 8 256 = none ∧ decodeTableWord 24 0 = none := by decide

/-! ### Decoding: words written out bit by bit from the rows of the table -/

theorem test_decode_command_words :
    decode Config.chselDefault (.cmd8 0b10001000#8) = .ok (.ch0 1) ∧
    decode Config.chselDefault (.cmd8 0b11000000#8) = .ok (.ch1 0) ∧
    decode Config.chselDefault (.cmd8 0b10011000#8) = .ok (.ch2 1) ∧
    decode Config.chselDefault (.cmd8 0b11010000#8) = .ok (.ch3 0) := by decide

theorem test_decode_command_words_high :
    decode Config.chselDefault (.cmd8 0b10101000#8) = .ok (.ch4 1) ∧
    decode Config.chselDefault (.cmd8 0b11100000#8) = .ok (.ch5 0) ∧
    decode Config.chselDefault (.cmd8 0b10111000#8) = .ok (.ch6 1) ∧
    decode Config.chselDefault (.cmd8 0b11110000#8) = .ok (.ch7 0) := by decide

/-- A frame, first byte received in bits 15:8, and a code under each reading. -/
theorem test_decode_frame_and_codes :
    decode Config.chselDefault (.frame16 0b0001001000110100#16) = .ok (.extract 0x12 0x34) ∧
    decode Config.chselDefault (.code12u 0b111111111111#12) = .ok (.tovoltUni 0xFFF) ∧
    decode Config.chselDefault (.code12b 0b100000000001#12) = .ok (.tovoltBip 1 1) := by decide

theorem test_table_words_decode :
    decodeTableWord 8 0xF8 = some (.ch7 1) ∧ decodeTableWord 16 0xABCD = some (.extract 0xAB 0xCD) ∧
    decodeTableWord 12 0xFFF = some (.tovoltUni 0xFFF) ∧ decodeTableWord 8 0x01 = none := by decide

/-! ### The command encoder -/

/-- Vectors E0, E8. -/
theorem test_ch0 : nextIs (exec (.ch0 1) State.reset) (fun t => t.cmd = 0x88 ∧ t.point = .sending) ∧
    nextIs (exec (.ch0 0) State.reset) (fun t => t.cmd = 0x80) := by decide
/-- Vectors E1, E9. -/
theorem test_ch1 : nextIs (exec (.ch1 1) State.reset) (fun t => t.cmd = 0xC8 ∧ t.point = .sending) ∧
    nextIs (exec (.ch1 0) State.reset) (fun t => t.cmd = 0xC0) := by decide
/-- Vectors E2, E10. -/
theorem test_ch2 : nextIs (exec (.ch2 1) State.reset) (fun t => t.cmd = 0x98 ∧ t.point = .sending) ∧
    nextIs (exec (.ch2 0) State.reset) (fun t => t.cmd = 0x90) := by decide
/-- Vectors E3, E11. -/
theorem test_ch3 : nextIs (exec (.ch3 1) State.reset) (fun t => t.cmd = 0xD8 ∧ t.point = .sending) ∧
    nextIs (exec (.ch3 0) State.reset) (fun t => t.cmd = 0xD0) := by decide
/-- Vectors E4, E12. -/
theorem test_ch4 : nextIs (exec (.ch4 1) State.reset) (fun t => t.cmd = 0xA8 ∧ t.point = .sending) ∧
    nextIs (exec (.ch4 0) State.reset) (fun t => t.cmd = 0xA0) := by decide
/-- Vectors E5, E13. -/
theorem test_ch5 : nextIs (exec (.ch5 1) State.reset) (fun t => t.cmd = 0xE8 ∧ t.point = .sending) ∧
    nextIs (exec (.ch5 0) State.reset) (fun t => t.cmd = 0xE0) := by decide
/-- Vectors E6, E14. -/
theorem test_ch6 : nextIs (exec (.ch6 1) State.reset) (fun t => t.cmd = 0xB8 ∧ t.point = .sending) ∧
    nextIs (exec (.ch6 0) State.reset) (fun t => t.cmd = 0xB0) := by decide
/-- Vectors E7, E15. -/
theorem test_ch7 : nextIs (exec (.ch7 1) State.reset) (fun t => t.cmd = 0xF8 ∧ t.point = .sending) ∧
    nextIs (exec (.ch7 0) State.reset) (fun t => t.cmd = 0xF0) := by decide

/-- Vectors E16, E19, E22, E24, E25: channels beyond 7 wrap. -/
theorem test_encode_wraps :
    encodeCommand Config.paramsDefault 8 .unipolar = 0x88 ∧ encodeCommand Config.paramsDefault 13 .bipolar = 0xE0 ∧
    encodeCommand Config.paramsDefault 127 .unipolar = 0xF8 ∧
    encodeCommand Config.paramsDefault 250 .unipolar = 0x98 ∧
    encodeCommand Config.paramsDefault 255 .bipolar = 0xF0 := by decide

/-- Vectors M1, M2, M6 to M9: MODEOF is total. -/
theorem test_modeOf : modeOf 0x80 = .bipolar ∧ modeOf 0xE8 = .unipolar ∧ modeOf 0x00 = .bipolar ∧
    modeOf 0x08 = .unipolar ∧ modeOf 0xF7 = .bipolar ∧ modeOf 0xFF = .unipolar := by decide

/-! ### The conversion engine -/

/-- Vectors X1, X4, X10, X11, X14. -/
theorem test_extract_codes : extractCode 0x00 0x0F = 0x000 ∧ extractCode 0x12 0x34 = 0x123 ∧
    extractCode 0xAB 0xCD = 0xABC ∧ extractCode 0xCD 0xAB = 0xCDA ∧ extractCode 0xFF 0xFF = 0xFFF := by decide

/-- Vector X8, under the command bytes of M0 and M1: the mode beside the code chooses its port. -/
theorem test_extract_mode :
    nextIs (exec (.extract 0x80 0x0F) { State.reset with cmd := 0x88 }) (fun t => t.point = .word (.code12u 0x800)) ∧
    nextIs (exec (.extract 0x80 0x0F) { State.reset with cmd := 0x80 }) (fun t => t.point = .word (.code12b 0x800)) := by
  decide

/-- Vectors U32-1, U32-10, U32-17, U64-7, U64-17. -/
theorem test_tovoltUni :
    voltIs (exec (.tovoltUni 0x001) (withVref Config.vref32)) 0x3A831AA1 ∧
    voltIs (exec (.tovoltUni 0x800) (withVref Config.vref32)) 0x40031AA1 ∧
    voltIs (exec (.tovoltUni 0xFFF) (withVref Config.vref32)) 0x4083126F ∧
    voltIs (exec (.tovoltUni 0x555) (withVref Config.vref64)) 0x3FF5D867C3ECE2A5 ∧
    voltIs (exec (.tovoltUni 0xFFF) (withVref Config.vref64)) 0x4010624DD2F1A9FC := by decide +kernel

/-- Vectors O32-6, O32-14, O32-22, O32-34: a negative, an infinite, the smallest and the largest finite reference. -/
theorem test_tovoltUni_references :
    voltIs (exec (.tovoltUni 0x000) (withVref (.b32 0xBF800000))) 0x80000000 ∧
    nextIs (exec (.tovoltUni 0x000) (withVref (.b32 0x7F800000))) (fun t => t.draws = 1) ∧
    voltIs (exec (.tovoltUni 0x7FF) (withVref (.b32 0x00000001))) 0x00000000 ∧
    voltIs (exec (.tovoltUni 0x800) (withVref (.b32 0x00000001))) 0x00000001 ∧
    voltIs (exec (.tovoltUni 0x001) (withVref (.b32 0x7F7FFFFF))) 0x79800800 := by decide +kernel

/-- Vectors B32-8, B32-9, B32-10, B32-20, B64-15. -/
theorem test_tovoltBip :
    voltIs (exec (.tovoltBip 0 0x7FE) (withVref Config.vref32)) 0x4003020B ∧
    voltIs (exec (.tovoltBip 0 0x7FF) (withVref Config.vref32)) 0x4003126F ∧
    voltIs (exec (.tovoltBip 1 0x000) (withVref Config.vref32)) 0x00000000 ∧
    voltIs (exec (.tovoltBip 1 0x7FF) (withVref Config.vref32)) 0xC003126F ∧
    voltIs (exec (.tovoltBip 1 0x2BC) (withVref Config.vref64)) 0xBFE669338CD80167 := by decide +kernel

/-- Vectors O32-7, O32-15, O32-29, O32-31, O64-19: signs, an infinity, and the ties of `vref / 2.0`. -/
theorem test_tovoltBip_references :
    voltIs (exec (.tovoltBip 1 0) (withVref (.b32 0xBF800000))) 0x80000000 ∧
    voltIs (exec (.tovoltBip 1 1) (withVref (.b32 0x7F800000))) 0xFF800000 ∧
    voltIs (exec (.tovoltBip 1 0x7FF) (withVref (.b32 0x00800001))) 0x80400000 ∧
    voltIs (exec (.tovoltBip 1 0x7FF) (withVref (.b32 0x00800003))) 0x80400002 ∧
    voltIs (exec (.tovoltBip 0 1) (withVref (.b64 0x0010000000000001))) 0x0000010020040080 := by decide +kernel

/-- VREF is 4096/1000 rounded to the nearest even, in both formats (R11, R14). -/
theorem test_vref_is_rounded :
    Config.vref32.pattern = roundRatio .binary32 (4096 * unitQuanta .binary32) 1000 ∧
    Config.vref64.pattern = roundRatio .binary64 (4096 * unitQuanta .binary64) 1000 := by decide +kernel

/-! ### The bus steps, one step each -/

/-- Vectors T0, T1. -/
theorem test_open :
    nextIs (step (busAt .openBus .closed { silent with opens := [.handle] }))
      (fun t => t.handle = .opened ∧ t.trace = [.openBus []]) ∧
    nextIs (step (busAt .openBus .closed { silent with opens := [.error] }))
      (fun t => t.handle = .closed ∧ t.status = .failed .busOpenFailed ∧ t.trace = [.openBus []]) := by decide

/-- Vectors T2, T3 (whose CLOSE is the step after). -/
theorem test_bind :
    nextIs (step (busAt .bindPeer .opened { silent with binds := [.done] }))
      (fun t => t.handle = .bound ∧ t.trace = [.bind 0x28]) ∧
    nextIs (step (busAt .bindPeer .opened { silent with binds := [.error] }))
      (fun t => nextIs (step t) (fun u =>
        u.handle = .closed ∧ u.status = .failed .busBindFailed ∧ u.trace = [.bind 0x28, .close])) := by decide

/-- Vectors T4 to T7. -/
theorem test_send :
    nextIs (step (sendState 0x88 (.accepted 1))) (fun t => t.point = .readLoop ∧ t.trace = [.send [0x88]]) ∧
    nextIs (step (sendState 0x88 (.accepted 0))) (fun t => t.point = .returned (.err .writeFailed)) ∧
    nextIs (step (sendState 0x88 .error)) (fun t => t.point = .returned (.err .writeFailed)) ∧
    nextIs (step (sendState 0x88 (.accepted 2))) (fun t => t.point = .readLoop) := by decide

/-- 93 entry U10: a byte that is no command byte, and R66. -/
theorem test_send_of_another_byte :
    refusedIs (step (sendState 0x84 (.accepted 1))) (.rejectedWord (.notACommandByte 0x84)) := by decide

/-- Vectors T8 to T12. -/
theorem test_recv :
    nextIs (step (recvState (.received [0x80, 0x00]))) (fun t => t.point = .word (.frame16 0x8000)) ∧
    nextIs (step (recvState (.received [0x80]))) (fun t => t.point = .returned (.err .readFailed)) ∧
    nextIs (step (recvState (.received []))) (fun t => t.point = .returned (.err .readFailed)) ∧
    nextIs (step (recvState .error)) (fun t => t.point = .returned (.err .readFailed)) ∧
    nextIs (step (recvState (.received [0x80, 0x00, 0x00]))) (fun t => t.point = .returned (.err .readFailed)) := by
  decide

/-- Vector T13. -/
theorem test_close :
    nextIs (step (busAt (.closing none) .opened silent)) (fun t => t.handle = .closed ∧ t.trace = [.close]) ∧
    nextIs (step (busAt (.closing (some .readFailed)) .bound silent))
      (fun t => t.handle = .closed ∧ t.status = .failed .readFailed) := by decide

/-- Vector T14: a call that is never answered. -/
theorem test_unanswered :
    nextIs (step (busAt .openBus .closed silent))
      (fun t => t = { State.reset with pending := some (.openBus []), trace := [.openBus []] } ∧
        nextIs (step t) (fun u => u = t)) := by decide

/-- R172 and the preconditions of R130, R131, R134. -/
theorem test_preconditions :
    refusedIs (step (busAt .openBus .bound silent)) .handleNotClosed ∧
    refusedIs (step (busAt .bindPeer .closed silent)) .handleNotOpened ∧
    refusedIs (step (busAt .sampleEntry .opened silent)) .handleNotBound ∧
    refusedIs (step (busAt (.closing none) .closed silent)) .handleNotHeld := by decide

/-- Vectors A4, A5: a direct call wraps the channel and drives VREF; the clamp of R137. -/
theorem test_direct_sample :
    nextIs (callSample (busAt .loopHead .bound silent) 13 .bipolar 0)
      (fun t => nextIs (step t) (fun u => u.point = .word (.cmd8 0xE0))) ∧
    nextIs (step { sendState 0xE0 (.accepted 1) with
        call := { caller := .direct, chan := 13, mode := .bipolar, repeatCount := 0 } }) (fun t => t.k = 1) := by decide

/-- R167, R182, R188: after a direct failure CLOSE follows by itself; after a direct success the outside closes; in the
midst of a SAMPLE a second one is refused. -/
theorem test_direct_close :
    nextIs (step { busAt (.returned (.err .readFailed)) .bound silent with call :=
        { caller := .direct, chan := 7, mode := .unipolar, repeatCount := 3 } })
      (fun t => nextIs (step t) (fun u => u.handle = .closed ∧ u.status = .failed .readFailed)) ∧
    nextIs (callClose (busAt .loopHead .bound silent))
      (fun t => nextIs (step t) (fun u => u.handle = .closed ∧ u.trace = [.close] ∧ u.status = .running)) ∧
    refusedIs (callSample { recvState .error with pending := some (.recv 2) } 0 .unipolar 1) .notAtRest ∧
    refusedIs (callSample (busAt .bindPeer .opened silent) 0 .unipolar 1) .handleNotBound := by decide

/-- R135, R165: a failed write leaves the voltage of an earlier SAMPLE where it was; a failed read drops its SAMPLE's. -/
theorem test_dropped_voltage :
    nextIs (step { sendState 0x88 .error with last := some Config.vref32 }) (fun t => t.last = some Config.vref32) ∧
    nextIs (step { recvState .error with last := some Config.vref32 }) (fun t => t.last = none) := by decide

/-- R140: the head and the foot of the sweep's loop. -/
theorem test_sweep_loop :
    nextIs (step { busAt .loopHead .bound silent with i := 7 })
      (fun t => t.point = .sampleEntry ∧ t.call = { caller := .sweep, chan := 7, mode := .unipolar, repeatCount := 1 }) ∧
    nextIs (step { busAt .loopHead .bound silent with i := 8 }) (fun t => t.point = .closing none) ∧
    nextIs (step { busAt (.returned (.ok Config.vref32)) .bound silent with i := 7 })
      (fun t => t.reports = [(7, Config.vref32)] ∧ t.i = 8) := by decide

/-- The one fault: SAMPLE's loop over with no voltage computed (93 entry U13). -/
theorem test_noVoltage :
    (match step (busAt .readLoop .bound silent) with
      | .fault r => decide (r = .noVoltage)
      | _ => false) = true := by decide

/-- A placed table word is the first instruction after reset (log 8). -/
theorem test_withFetchWord :
    nextIs (step (State.reset.withFetchWord 8 0xD0)) (fun t => t.cmd = 0xD0) ∧
    nextIs (step (State.reset.withFetchWord 16 0xFFF0)) (fun t => t.point = .word (.code12b 0xFFF)) ∧
    voltIs (step (State.reset.withFetchWord 12 0xFFF)) 0x4083126F := by decide +kernel

/-! ### Witnesses: states and operands that meet the hypotheses of the statements -/

/-- A second legal table, of no device: only R63 is asked of CHSEL. -/
def otherTable : ChannelTable := ⟨#v[0x00, 0x10, 0x20, 0x30, 0x40, 0x50, 0x60, 0x70]⟩

/-- Parameters with the narrowest channel port. -/
def narrow : Params := { chsel := otherTable, chanw := 3, busPath := [0x2F] }

/-- DecodeOfEncodeIsTheInstruction, EachWordHasOneMeaning. -/
theorem witness_legal_tables : Config.chselDefault.Legal ∧ otherTable.Legal := by decide

/-- CommandBytesAreTheSixteen, ModeOfRecoversTheMode. -/
theorem witness_legal_params : Config.paramsDefault.Legal ∧ narrow.Legal := by decide

/-- OtherBytesAreRefused: both clauses. -/
theorem witness_other_byte :
    (sendState 0x84 .error).params.Legal ∧
    (∀ n : Fin 8, (0x84 : Byte) ≠ (sendState 0x84 .error).params.chsel.sel n ∧
      (0x84 : Byte) ≠ (sendState 0x84 .error).params.chsel.sel n ||| 0x08#8) ∧
    (sendState 0x84 .error).point = .sending ∧ (sendState 0x84 .error).handle = .bound ∧
    (sendState 0x84 .error).cmd = 0x84 := by decide

/-- EncodeReducesChannelModuloEight: each clause at the edge of its range. -/
theorem witness_encode_reduces :
    Config.paramsDefault.Legal ∧ narrow.Legal ∧ 255 < 2 ^ Config.paramsDefault.chanw ∧ 7 < 2 ^ narrow.chanw ∧
    247 + 8 < 2 ^ Config.paramsDefault.chanw := by decide

/-- EncodeFieldsAndInjectivity, with its clause on channel 8; EncodeProducesTheChannelsWord. -/
theorem witness_encode_fields :
    Config.paramsDefault.Legal ∧ 13 < 2 ^ Config.paramsDefault.chanw ∧ 5 < 2 ^ Config.paramsDefault.chanw ∧
    8 < 2 ^ Config.paramsDefault.chanw ∧ 13 % 8 = 5 % 8 := by decide

/-- ExtractIgnoresTheLowNibble: two second bytes that differ. -/
theorem witness_extract_ignores :
    (0x3A : Byte).extractLsb' 4 4 = (0x35 : Byte).extractLsb' 4 4 ∧ (0x3A : Byte) ≠ 0x35 := by decide

/-- ArithmeticIsCorrectlyRounded: the smallest subnormal and the largest finite magnitude. -/
theorem witness_arithmetic :
    1 < infMag Config.vref32.format ∧ 0x7F7FFFFF < infMag Config.vref32.format ∧ 0x7F7FFFFF ≠ 0 ∧
    0x7FEFFFFFFFFFFFFF < infMag Config.vref64.format := by decide +kernel

/-- IntegerConversionIsExact: the edges of its range. -/
theorem witness_integers : 0 ≤ 4095 ∧ 4095 ≤ 4095 := by decide

/-- Finite references: VREF, the largest finite, a subnormal, and a negative zero (UnipolarEndpoints,
BipolarIsOddInTheSignBit, BipolarEndpoints, HalvingIsInexactOnlyForSmallOddReferences, FiniteReferenceGivesFiniteVoltage,
NegatedReferenceNegatesTheVoltage). -/
theorem witness_finite :
    isFinite (withVref Config.vref32).vref ∧ isFinite (withVref (.b32 0x7F7FFFFF)).vref ∧
    isFinite (withVref (.b64 1)).vref ∧ isFinite (withVref (.b32 0x80000000)).vref ∧ (0x7FF : BitVec 11) ≠ 0 := by
  decide +kernel

/-- HalvingIsInexactOnlyForSmallOddReferences: both sides of its bound, as vectors O32-28 and O32-32 have them. -/
theorem witness_halving :
    (fpMag (.b32 0x00FFFFFF) < 2 * 2 ^ (Fp.b32 0x00FFFFFF).format.fracBits ∧ fpMag (.b32 0x00FFFFFF) % 2 = 1) ∧
    ¬ fpMag (.b32 0x01000001) < 2 * 2 ^ (Fp.b32 0x01000001).format.fracBits := by decide +kernel

/-- Positive finite references (UnipolarRangeIsClosed, UnipolarIsMonotone, ZeroMagnitudeIsPositiveZero,
BipolarRangeIsClosed, BipolarIsMonotoneInMagnitude). -/
theorem witness_positive :
    isPositiveFinite (withVref Config.vref64).vref ∧ isPositiveFinite (withVref (.b32 1)).vref ∧
    isPositiveFinite (withVref (.b32 0x7F7FFFFF)).vref ∧ (0x7FF : Code).toNat ≤ (0x800 : Code).toNat ∧
    (0 : BitVec 11).toNat ≤ (1 : BitVec 11).toNat := by decide +kernel

/-- The clauses at 4.096 (UnipolarIsMonotone, BipolarIsMonotoneInMagnitude): both formats, neighbouring codes at the ends. -/
theorem witness_at_vref :
    (∀ x ∈ [Config.vref32, Config.vref64], isPositiveFinite (withVref x).vref ∧ (withVref x).vref = vrefLike (withVref x).vref) ∧
    (0 : Code).toNat < (1 : Code).toNat ∧ (4094 : Code).toNat < (4095 : Code).toNat ∧
    (0 : BitVec 11).toNat < (1 : BitVec 11).toNat ∧ (2046 : BitVec 11).toNat < (2047 : BitVec 11).toNat := by decide +kernel

/-- Neighbouring codes round to one value where the result is subnormal (R116: "neighbouring codes can round to the same
value"): by hand, 4094/4095 and 4095/4095 of the smallest subnormal are nearest to that subnormal. -/
theorem test_subnormal_codes_coincide :
    nextIs (exec (.tovoltUni 4094) (withVref (.b32 1))) (fun t => t.last = some (.b32 1)) = true ∧
    nextIs (exec (.tovoltUni 4095) (withVref (.b32 1))) (fun t => t.last = some (.b32 1)) = true := by decide +kernel

/-- ZeroReferenceGivesZeros: both zeros. -/
theorem witness_zero :
    fpMag (withVref (.b32 0)).vref = 0 ∧ fpMag (withVref (.b64 0x8000000000000000)).vref = 0 := by decide +kernel

/-- InfiniteReferenceGivesInfinitiesAndNaNs: both infinities. -/
theorem witness_infinite :
    fpMag (withVref (.b32 0x7F800000)).vref = infMag (withVref (.b32 0x7F800000)).vref.format ∧
    fpMag (withVref (.b64 0xFFF0000000000000)).vref = infMag (withVref (.b64 0xFFF0000000000000)).vref.format := by
  decide +kernel

/-- NanReferenceGivesQuietNaNs: a signaling and a quiet NaN. -/
theorem witness_nan :
    infMag (withVref (.b32 0x7F800001)).vref.format < fpMag (withVref (.b32 0x7F800001)).vref ∧
    infMag (withVref (.b64 0x7FF8000000000000)).vref.format < fpMag (withVref (.b64 0x7FF8000000000000)).vref := by
  decide +kernel

/-- StepRunsTheDecodedInstruction: a word of each family. -/
theorem witness_step_runs :
    (busAt (.word (.cmd8 0x98)) .bound silent).point = .word (.cmd8 0x98) ∧
    decode (busAt (.word (.cmd8 0x98)) .bound silent).params.chsel (.cmd8 0x98) = .ok (.ch2 1) ∧
    decode (busAt (.word (.frame16 0x1234)) .bound silent).params.chsel (.frame16 0x1234) = .ok (.extract 0x12 0x34) := by
  decide

/-- PlacedWordIsRunNext: a word of each width. -/
theorem witness_placed :
    State.reset.params.chsel = Config.chselDefault ∧ decodeTableWord 8 0x80 = some (.ch0 0) ∧
    decodeTableWord 12 0 = some (.tovoltUni 0) ∧ decodeTableWord 16 0 = some (.extract 0 0) := by decide

/-- OpenOutcomes and BindOutcomes: both answers of each. -/
theorem witness_open_and_bind (a : OpenAnswer) (b : BindAnswer) :
    ((busAt .openBus .closed { silent with opens := [a] }).point = .openBus ∧
      (busAt .openBus .closed { silent with opens := [a] }).handle = .closed ∧
      (busAt .openBus .closed { silent with opens := [a] }).pending = none ∧
      (busAt .openBus .closed { silent with opens := [a] }).oracle.opens = a :: []) ∧
    (busAt .bindPeer .opened { silent with binds := [b] }).point = .bindPeer ∧
      (busAt .bindPeer .opened { silent with binds := [b] }).handle = .opened ∧
      (busAt .bindPeer .opened { silent with binds := [b] }).pending = none ∧
      (busAt .bindPeer .opened { silent with binds := [b] }).oracle.binds = b :: [] :=
  ⟨⟨rfl, rfl, rfl, rfl⟩, rfl, rfl, rfl, rfl⟩

/-- SendOutcomes: every answer (a count of 0, of 1, of more, an Error), the call issued now or pending already. -/
theorem witness_send (a : SendAnswer) :
    (sendState 0x88 a).point = .sending ∧ (sendState 0x88 a).handle = .bound ∧
    decode (sendState 0x88 a).params.chsel (.cmd8 (sendState 0x88 a).cmd) = .ok (.ch0 1) ∧
    (sendState 0x88 a).pending = none ∧ (sendState 0x88 a).oracle.sends = a :: [] ∧
    ((sendState 0x88 a).issue (.send [0x88])).pending = some (.send [(sendState 0x88 a).cmd]) :=
  ⟨rfl, rfl, (test_decode_command_words).1, rfl, rfl, rfl⟩

/-- RecvOutcomes: every answer (two bytes, any other length, an Error). -/
theorem witness_recv (a : RecvAnswer) :
    (recvState a).point = .readLoop ∧ 0 < (recvState a).k ∧ (recvState a).handle = .bound ∧
    (recvState a).pending = none ∧ (recvState a).oracle.recvs = a :: [] :=
  ⟨rfl, Nat.one_pos, rfl, rfl, rfl⟩

/-- CloseEndsTheRun: either outcome, from either handle. -/
theorem witness_close (failure : Option ErrorKind) :
    (busAt (.closing failure) .opened silent).point = .closing failure ∧
    (busAt (.closing failure) .opened silent).handle ≠ .closed ∧
    (busAt (.closing failure) .bound silent).handle ≠ .closed :=
  ⟨rfl, nofun, nofun⟩

/-- UnboundHandleIsRefused: each of its three control locations. -/
theorem witness_unbound :
    (busAt .sampleEntry .closed silent).handle ≠ .bound ∧ (busAt .sampleEntry .closed silent).point = .sampleEntry ∧
    (busAt .sending .opened silent).handle ≠ .bound ∧ (busAt .sending .opened silent).point = .sending ∧
    ({ busAt .readLoop .opened silent with k := 1 } : State).handle ≠ .bound ∧
    ({ busAt .readLoop .opened silent with k := 1 } : State).point = .readLoop ∧
    0 < ({ busAt .readLoop .opened silent with k := 1 } : State).k := by decide

/-- BusPreconditionsAreRefused, SampleEntryDrivesTheCommandWord, ReadLoopCountsDown, SweepLoopOutcomes: a state for each
clause, the two of the sweep's bound at 7 and 8. -/
theorem witness_loops :
    ((busAt .openBus .bound silent).handle ≠ .closed ∧ (busAt .bindPeer .closed silent).handle ≠ .opened ∧
      (busAt (.closing none) .closed silent).handle = .closed ∧
      (busAt .releasing .closed silent).point = .releasing ∧ (busAt .releasing .closed silent).handle = .closed) ∧
    (busAt .sampleEntry .bound silent).handle = .bound ∧ (busAt .converted .bound silent).point = .converted ∧
    ((busAt .readLoop .bound silent).k = 0 ∧ (busAt .readLoop .bound silent).last = none ∧
      ({ busAt .readLoop .bound silent with last := some Config.vref32 } : State).last = some Config.vref32) ∧
    ({ busAt .loopHead .bound silent with i := 7 } : State).i ≤ 7 ∧
    7 < ({ busAt .loopHead .bound silent with i := 8 } : State).i ∧
    (busAt (.returned (.ok Config.vref32)) .bound silent).call.caller = .sweep ∧
    (busAt (.returned (.err .readFailed)) .bound silent).call.caller = .sweep := by decide

/-- A state that is bound, before its first sample, meets the invariant at SAMPLE's entry, at SEND and at RECV. -/
theorem witness_invariant_in_sample :
    sequenceInv (busAt .sampleEntry .bound silent) ∧ sequenceInv (sendState 0x88 (.accepted 1)) ∧
    sequenceInv (recvState .error) := by
  refine ⟨⟨by decide, by decide, rfl, rfl, nofun, nofun, .inl rfl, rfl, rfl, fun _ => ⟨rfl, by decide⟩⟩,
    ⟨by decide, by decide, rfl, rfl, nofun, nofun, .inl rfl, ⟨rfl, rfl, fun _ => ⟨rfl, by decide⟩⟩, ?_⟩,
    ⟨by decide, by decide, rfl, rfl, nofun, nofun, .inl rfl, ⟨⟨rfl, rfl, fun _ => ⟨rfl, by decide⟩⟩, ?_, ?_⟩, nofun⟩⟩
  · show (0x88 : Byte) = encodeCommand Config.paramsDefault 0 .unipolar
    decide
  · show (0x88 : Byte) = encodeCommand Config.paramsDefault 0 .unipolar
    decide
  · decide

/-- UnansweredCallIsStuck: `open`, `bind`, `send` and `recv`, none answered. -/
theorem witness_unanswered :
    (nextCall State.reset = some (.openBus []) ∧ ¬ oracleAnswers State.reset) ∧
    (nextCall (busAt .bindPeer .opened silent) = some (.bind 0x28) ∧ ¬ oracleAnswers (busAt .bindPeer .opened silent)) ∧
    (nextCall (busAt .sending .bound silent) = some (.send [0]) ∧ ¬ oracleAnswers (busAt .sending .bound silent)) ∧
    nextCall ({ busAt .readLoop .bound silent with k := 1 }) = some (.recv 2) ∧
    ¬ oracleAnswers ({ busAt .readLoop .bound silent with k := 1 }) :=
  ⟨⟨rfl, fun h => h rfl⟩, ⟨rfl, fun h => h rfl⟩, ⟨rfl, fun h => h rfl⟩, rfl, fun h => h Nat.one_pos rfl⟩

/-- UnansweredCallIsStuck, with the invariant: BIND waiting for its answer. -/
theorem witness_unanswered_invariant :
    sequenceInv (busAt .bindPeer .opened silent) ∧ nextCall (busAt .bindPeer .opened silent) = some (.bind 0x28) ∧
    ¬ oracleAnswers (busAt .bindPeer .opened silent) :=
  ⟨⟨by decide, by decide, rfl, rfl, nofun, nofun, .inl rfl, rfl, rfl, rfl⟩, rfl, fun h => h rfl⟩

/-- A SAMPLE called directly, at its entry: its write accepted, its reads answered by `recvs`. -/
def sampleState (repeatCount : Nat) (recvs : List RecvAnswer) : State :=
  { busAt .sampleEntry .bound { silent with sends := [.accepted 1], recvs := recvs } with
    call := { caller := .direct, chan := 5, mode := .bipolar, repeatCount := repeatCount } }

/-- SampleReturnsTheLastVoltage: the three reads of vector A2, and the clamped count of A4. -/
theorem witness_sample_returns :
    (sampleState 3 ([(0x12, 0x34), (0xFF, 0xFF), (0xAB, 0xCD)].map goodRead)).point = .sampleEntry ∧
    (sampleState 3 ([(0x12, 0x34), (0xFF, 0xFF), (0xAB, 0xCD)].map goodRead)).handle = .bound ∧
    (sampleState 3 ([(0x12, 0x34), (0xFF, 0xFF), (0xAB, 0xCD)].map goodRead)).pending = none ∧
    (sampleState 3 ([(0x12, 0x34), (0xFF, 0xFF), (0xAB, 0xCD)].map goodRead)).params.Legal ∧
    (sampleState 3 ([(0x12, 0x34), (0xFF, 0xFF), (0xAB, 0xCD)].map goodRead)).oracle.sends = .accepted (0 + 1) :: [] ∧
    (sampleState 3 ([(0x12, 0x34), (0xFF, 0xFF), (0xAB, 0xCD)].map goodRead)).oracle.recvs =
      [((0x12 : Byte), (0x34 : Byte)), (0xFF, 0xFF), (0xAB, 0xCD)].map goodRead ++ [] ∧
    [((0x12 : Byte), (0x34 : Byte)), (0xFF, 0xFF), (0xAB, 0xCD)].length = max 3 1 ∧
    [((0x12 : Byte), (0x34 : Byte)), (0xFF, 0xFF), (0xAB, 0xCD)].getLast? = some (0xAB, 0xCD) ∧
    [((0xFF : Byte), (0xF0 : Byte))].length = max (sampleState 0 []).call.repeatCount 1 := by decide

/-- SampleFailsAtAFailedRead: the first read of one, and the second of three as in vector A7. -/
theorem witness_sample_fails :
    (sampleState 3 [goodRead (0x80, 0x00), .received [0x80]]).point = .sampleEntry ∧
    (sampleState 3 [goodRead (0x80, 0x00), .received [0x80]]).handle = .bound ∧
    (sampleState 3 [goodRead (0x80, 0x00), .received [0x80]]).pending = none ∧
    (sampleState 3 [goodRead (0x80, 0x00), .received [0x80]]).params.Legal ∧
    (sampleState 3 [goodRead (0x80, 0x00), .received [0x80]]).oracle.sends = .accepted (0 + 1) :: [] ∧
    (sampleState 3 [goodRead (0x80, 0x00), .received [0x80]]).oracle.recvs =
      [((0x80 : Byte), (0x00 : Byte))].map goodRead ++ .received [0x80] :: [] ∧
    [((0x80 : Byte), (0x00 : Byte))].length < max 3 1 ∧ readBytes (.received [0x80]) = none ∧
    ([] : List (Byte × Byte)).length < max (sampleState 0 [.error]).call.repeatCount 1 ∧ readBytes .error = none := by
  decide

/-- A run about to begin: `open` and `bind` answered well, then `sends` and `recvs`. -/
def runState (sends : List SendAnswer) (recvs : List RecvAnswer) : State :=
  busAt .openBus .closed { opens := [.handle], binds := [.done], sends := sends, recvs := recvs }

/-- Frames of code 2048 (vector S8). -/
def frames2048 (n : Nat) : List (Byte × Byte) := List.replicate n (0x80, 0x00)

/-- SweepReportsTheEightChannels: program P1. -/
theorem witness_sweep (sends : List SendAnswer) (recvs : List RecvAnswer) :
    atStart (runState sends recvs) ∧ (runState sends recvs).params.Legal ∧
    (runState sends recvs).oracle.opens = .handle :: [] ∧ (runState sends recvs).oracle.binds = .done :: [] ∧
    (runState (List.replicate 8 (.accepted 1) ++ sends) ((frames2048 8).map goodRead ++ recvs)).oracle.sends =
      List.replicate 8 (.accepted 1) ++ sends ∧
    (runState (List.replicate 8 (.accepted 1) ++ sends) ((frames2048 8).map goodRead ++ recvs)).oracle.recvs =
      (frames2048 8).map goodRead ++ recvs ∧
    (List.replicate 8 (SendAnswer.accepted 1)).length = 8 ∧
    (∀ a ∈ List.replicate 8 (SendAnswer.accepted 1), writeSucceeded a = true) ∧ (frames2048 8).length = 8 :=
  ⟨⟨rfl, rfl, rfl, rfl, rfl⟩, witness_legal_params.1, rfl, rfl, rfl, rfl, rfl, by decide, rfl⟩

/-- A run whose read fails at channel `c`, by an answer of one byte (program P3 at channel 3). -/
def readFailsAt (c : Nat) : State :=
  runState (List.replicate (c + 1) (.accepted 1) ++ []) ((frames2048 c).map goodRead ++ .received [0x80] :: [])

/-- SweepFailsFastOnAFailedRead at every channel, 0 and 7 among them; each kind of failed answer. -/
theorem witness_failed_read (c : Nat) (h : c ≤ 7) :
    atStart (readFailsAt c) ∧ (readFailsAt c).params.Legal ∧ (readFailsAt c).oracle.opens = .handle :: [] ∧
    (readFailsAt c).oracle.binds = .done :: [] ∧
    (readFailsAt c).oracle.sends = List.replicate (c + 1) (.accepted 1) ++ [] ∧
    (readFailsAt c).oracle.recvs = (frames2048 c).map goodRead ++ .received [0x80] :: [] ∧
    (frames2048 c).length ≤ 7 ∧
    (List.replicate (c + 1) (SendAnswer.accepted 1)).length = (frames2048 c).length + 1 ∧
    (∀ a ∈ List.replicate (c + 1) (SendAnswer.accepted 1), writeSucceeded a = true) ∧
    readBytes (.received [0x80]) = none ∧ readBytes (.received []) = none ∧ readBytes .error = none :=
  ⟨⟨rfl, rfl, rfl, rfl, rfl⟩, witness_legal_params.1, rfl, rfl, rfl, rfl, by simpa [frames2048] using h,
    by simp [frames2048], fun a ha => by rw [List.eq_of_mem_replicate ha]; rfl, rfl, rfl, rfl⟩

/-- A run whose write fails at channel `c`, with no byte accepted (program P5c at channel 0). -/
def writeFailsAt (c : Nat) : State :=
  runState (List.replicate c (.accepted 2) ++ .accepted 0 :: []) ((frames2048 c).map goodRead ++ [])

/-- SweepFailsFastOnAFailedWrite at every channel, 0 and 7 among them; both failed answers. -/
theorem witness_failed_write (c : Nat) (h : c ≤ 7) :
    atStart (writeFailsAt c) ∧ (writeFailsAt c).params.Legal ∧ (writeFailsAt c).oracle.opens = .handle :: [] ∧
    (writeFailsAt c).oracle.binds = .done :: [] ∧
    (writeFailsAt c).oracle.sends = List.replicate c (.accepted 2) ++ .accepted 0 :: [] ∧
    (writeFailsAt c).oracle.recvs = (frames2048 c).map goodRead ++ [] ∧ (frames2048 c).length ≤ 7 ∧
    (List.replicate c (SendAnswer.accepted 2)).length = (frames2048 c).length ∧
    (∀ a ∈ List.replicate c (SendAnswer.accepted 2), writeSucceeded a = true) ∧
    writeSucceeded (.accepted 0) = false ∧ writeSucceeded .error = false :=
  ⟨⟨rfl, rfl, rfl, rfl, rfl⟩, witness_legal_params.1, rfl, rfl, rfl, rfl, by simpa [frames2048] using h,
    by simp [frames2048], fun a ha => by rw [List.eq_of_mem_replicate ha]; rfl, rfl, rfl⟩

/-- EveryStepKeepsTheInvariant, InvariantStatesAlwaysStep, ParametersAreNeverWritten, OneBusCallAStep: a state that meets
the invariant and steps, with a bus call. -/
theorem witness_invariant_steps :
    sequenceInv (runState [] []) ∧
    ∃ t, step (runState [] []) = .next t ∧ t.point = .bindPeer ∧ t.trace = [.openBus []] :=
  ⟨⟨by decide, by decide, rfl, rfl, nofun, nofun, .inl rfl, rfl, rfl, rfl⟩, _, rfl, rfl, rfl⟩

/-- AnsweredStepsApproachTheEnd: a state that is not over and whose call is answered. -/
theorem witness_answered :
    sequenceInv (runState [] []) ∧ ¬ isOver (runState [] []) ∧ oracleAnswers (runState [] []) :=
  ⟨⟨by decide, by decide, rfl, rfl, nofun, nofun, .inl rfl, rfl, rfl, rfl⟩, id, nofun⟩

/-- EndedRunStaysEnded: the end of program P5a. -/
theorem witness_ended :
    sequenceInv { busAt .ended .closed silent with status := .failed .busOpenFailed } ∧
    ({ busAt .ended .closed silent with status := .failed .busOpenFailed } : State).status ≠ .running :=
  ⟨⟨by decide, by decide, rfl, rfl, nofun, nofun, .inl rfl, rfl, nofun, nofun⟩, nofun⟩

/-- ReportsAreOnlyAppended: the step that reports; OneBusCallAStep: the step of CLOSE. -/
theorem witness_report_and_close :
    (∃ t, step (busAt (.returned (.ok Config.vref32)) .bound silent) = .next t ∧ t.reports = [(0, Config.vref32)]) ∧
    (∃ t, step (busAt (.closing none) .bound silent) = .next t ∧ t.trace = [.close]) ∧
    ∃ t, step (busAt .releasing .bound silent) = .next t ∧ t.trace = [.close] :=
  ⟨⟨_, rfl, rfl⟩, ⟨_, rfl, rfl⟩, _, rfl, rfl⟩

/-- A state in which a direct SAMPLE has returned `r`. -/
def directReturned (r : SampleResult) (last : Option Fp) : State :=
  { busAt (.returned r) .bound silent with
    call := { caller := .direct, chan := 5, mode := .bipolar, repeatCount := 3 }
    last := last }

/-- DirectCallsKeepTheInvariant: at rest before the sweep's first channel, and after a direct SAMPLE; not at rest after a
direct SAMPLE has failed. -/
theorem witness_direct :
    (sequenceInv (busAt .loopHead .bound silent) ∧ (busAt .loopHead .bound silent).handle = .bound ∧
      (busAt .loopHead .bound silent).point = .loopHead ∧ (busAt .loopHead .bound silent).i = 0) ∧
    (sequenceInv (directReturned (.ok Config.vref32) (some Config.vref32)) ∧
      (directReturned (.ok Config.vref32) (some Config.vref32)).handle = .bound ∧
      (directReturned (.ok Config.vref32) (some Config.vref32)).call.caller = .direct) ∧
    sequenceInv (directReturned (.err .readFailed) none) ∧ (directReturned (.err .readFailed) none).handle = .bound ∧
    ¬ ((directReturned (.err .readFailed) none).point = .loopHead) :=
  ⟨⟨⟨by decide, by decide, rfl, rfl, nofun, nofun, .inl rfl, rfl, rfl⟩, rfl, rfl, rfl⟩,
    ⟨⟨by decide, by decide, rfl, rfl, nofun, by rintro v ⟨⟩; rfl, .inl rfl, ⟨rfl, rfl, nofun⟩, rfl⟩, rfl, rfl⟩,
    ⟨by decide, by decide, rfl, rfl, nofun, nofun, .inl rfl, ⟨rfl, rfl, nofun⟩, .inr ⟨rfl, rfl⟩⟩, rfl, nofun⟩

end Sys2Proof.Tests
end

section
/-! SUPPORT. What a step of the sequence can do, said once; then the invariant of the sequence, kept by each of these
transitions, and the statements about the state as a whole. -/

namespace Sys2Proof.Machine

/-! ### What a step can do -/

/-- The transitions of the sequence, one constructor per line of the pseudocode and outcome (R130 to R144): what guards it
and the next state, written with the operations of Machine/Ops.lean. A call that the oracle does not answer is one
transition for all four calls (R54), stated without the handle that each of the four needs. -/
inductive Transition (s : State) : State → Prop where
  | unanswered {c : BusCall} (hc : nextCall s = some c) (ho : ¬ oracleAnswers s) : Transition s (s.issue c)
  | opened {rest : List OpenAnswer} (hp : s.point = .openBus) (hh : s.handle = .closed)
      (ho : s.oracle.opens = .handle :: rest) :
      Transition s ((((s.issue (.openBus s.params.busPath)).answered { s.oracle with opens := rest }).setHandle
        .opened).goto .bindPeer)
  | openFailed {rest : List OpenAnswer} (hp : s.point = .openBus) (hh : s.handle = .closed)
      (ho : s.oracle.opens = .error :: rest) :
      Transition s (((s.issue (.openBus s.params.busPath)).answered { s.oracle with opens := rest }).finish
        (.failed .busOpenFailed))
  | bound {rest : List BindAnswer} (hp : s.point = .bindPeer) (hh : s.handle = .opened)
      (ho : s.oracle.binds = .done :: rest) :
      Transition s ((((s.issue (.bind Config.peer)).answered { s.oracle with binds := rest }).setHandle
        .bound).firstChannel.goto .loopHead)
  | bindFailed {rest : List BindAnswer} (hp : s.point = .bindPeer) (hh : s.handle = .opened)
      (ho : s.oracle.binds = .error :: rest) :
      Transition s (((s.issue (.bind Config.peer)).answered { s.oracle with binds := rest }).goto
        (.closing (some .busBindFailed)))
  | nextChannel (hp : s.point = .loopHead) (hi : s.i ≤ 7) : Transition s (s.callChannel.goto .sampleEntry)
  | sweepDone (hp : s.point = .loopHead) (hi : ¬ s.i ≤ 7) : Transition s (s.goto (.closing none))
  | sampleEntered (hp : s.point = .sampleEntry) (hh : s.handle = .bound) :
      Transition s (s.driveVref.goto (.word (.cmd8 (encodeCommand s.params s.call.chan s.call.mode))))
  | commandDriven {w : BitVec 8} {i : Instr} (hp : s.point = .word (.cmd8 w))
      (hd : decodeCommand s.params.chsel w = .ok i) : Transition s ((s.setCmd w).goto .sending)
  | codeExtracted {w : BitVec 16} (hp : s.point = .word (.frame16 w)) :
      Transition s (s.goto (.word (codeWord (modeOf s.cmd) (extractCode (w.extractLsb' 8 8) (w.extractLsb' 0 8)))))
  | unipolarConverted {w : BitVec 12} (hp : s.point = .word (.code12u w)) :
      Transition s ((s.takeVolt (unipolarVolt s.vref.format w (fpVal s.vref))).goto .converted)
  | bipolarConverted {w : BitVec 12} (hp : s.point = .word (.code12b w)) :
      Transition s ((s.takeVolt (bipolarVolt s.vref.format (w.extractLsb' 11 1) (w.extractLsb' 0 11)
        (fpVal s.vref))).goto .converted)
  | sent {i : Instr} {a : SendAnswer} {rest : List SendAnswer} (hp : s.point = .sending)
      (hh : s.handle = .bound) (hd : decodeCommand s.params.chsel s.cmd = .ok i)
      (ho : s.oracle.sends = a :: rest) (ha : writeSucceeded a = true) :
      Transition s (((s.issue (.send [s.cmd])).answered { s.oracle with sends := rest }).startReads.goto .readLoop)
  | sendFailed {i : Instr} {a : SendAnswer} {rest : List SendAnswer} (hp : s.point = .sending)
      (hh : s.handle = .bound) (hd : decodeCommand s.params.chsel s.cmd = .ok i)
      (ho : s.oracle.sends = a :: rest) (ha : ¬ writeSucceeded a = true) :
      Transition s (((s.issue (.send [s.cmd])).answered { s.oracle with sends := rest }).raise .writeFailed)
  | received {a : RecvAnswer} {rest : List RecvAnswer} {b0 b1 : Byte} (hp : s.point = .readLoop) (hk : 0 < s.k)
      (hh : s.handle = .bound) (ho : s.oracle.recvs = a :: rest) (ha : readBytes a = some (b0, b1)) :
      Transition s (((s.issue (.recv 2)).answered { s.oracle with recvs := rest }).goto
        (.word (.frame16 (frameOf b0 b1))))
  | recvFailed {a : RecvAnswer} {rest : List RecvAnswer} (hp : s.point = .readLoop) (hk : 0 < s.k)
      (hh : s.handle = .bound) (ho : s.oracle.recvs = a :: rest) (ha : readBytes a = none) :
      Transition s (((s.issue (.recv 2)).answered { s.oracle with recvs := rest }).dropReads.raise .readFailed)
  | readsDone {v : Fp} (hp : s.point = .readLoop) (hk : ¬ 0 < s.k) (hl : s.last = some v) :
      Transition s (s.goto (.returned (.ok v)))
  | readCounted (hp : s.point = .converted) : Transition s (s.countRead.goto .readLoop)
  | sampleFailed {kind : ErrorKind} (hp : s.point = .returned (.err kind)) :
      Transition s (s.goto (.closing (some kind)))
  | reported {v : Fp} (hp : s.point = .returned (.ok v)) (hc : s.call.caller = .sweep) :
      Transition s ((s.report v).goto .loopHead)
  | directRests {v : Fp} (hp : s.point = .returned (.ok v)) (hc : s.call.caller = .direct) : Transition s s
  | closed {failure : Option ErrorKind} (hp : s.point = .closing failure) (hh : s.handle ≠ .closed) :
      Transition s (s.close.finish (finalStatus failure))
  | released (hp : s.point = .releasing) (hh : s.handle ≠ .closed) : Transition s (s.close.goto .released)
  | stays (hp : s.point = .released ∨ s.point = .ended) : Transition s s

section
variable {s t : State}

/-- The control location makes a call that the oracle does not answer. -/
theorem Transition.ofUnanswered {p : Point} {c : BusCall} (hp : s.point = p) (hc : nextCall (s.goto p) = some c)
    (ho : ¬ oracleAnswers (s.goto p)) : Transition s (s.issue c) := by
  subst hp
  exact .unanswered hc ho

theorem stepOpen_transition (hp : s.point = .openBus) (h : stepOpen s = .next t) : Transition s t := by
  unfold stepOpen at h
  split_ifs at h with hh
  cases ho : s.oracle.opens with
  | nil =>
    rw [callOpen_unanswered ho] at h
    cases h
    exact .ofUnanswered hp rfl fun ha => ha ho
  | cons a rest =>
    rw [callOpen_answered ho] at h
    cases a with
    | handle => cases h; exact .opened hp hh ho
    | error => cases h; exact .openFailed hp hh ho

theorem stepBind_transition (hp : s.point = .bindPeer) (h : stepBind s = .next t) : Transition s t := by
  unfold stepBind at h
  split_ifs at h with hh
  cases ho : s.oracle.binds with
  | nil =>
    rw [callBind_unanswered ho] at h
    cases h
    exact .ofUnanswered hp rfl fun ha => ha ho
  | cons a rest =>
    rw [callBind_answered ho] at h
    cases a with
    | done => cases h; exact .bound hp hh ho
    | error => cases h; exact .bindFailed hp hh ho

theorem stepLoopHead_transition (hp : s.point = .loopHead) (h : stepLoopHead s = .next t) : Transition s t := by
  unfold stepLoopHead at h
  split_ifs at h with hi
  · cases h; exact .nextChannel hp hi
  · cases h; exact .sweepDone hp hi

theorem stepSampleEntry_transition (hp : s.point = .sampleEntry) (h : stepSampleEntry s = .next t) :
    Transition s t := by
  unfold stepSampleEntry at h
  split_ifs at h with hh
  cases h
  exact .sampleEntered hp hh

/-- A command word whose bits under the mask are the pattern of channel `n` drives itself (R61, R83 to R90). -/
theorem driveCommand_of_masked {w : Byte} {n : Fin 8} (h : w &&& commandMask = s.params.chsel.sel n) :
    driveCommand n (polarityBit w) s = .next ((s.setCmd w).goto .sending) := by
  rw [driveCommand, ← h, commandByte_of_masked]

/-- Whatever command word the decoder accepts, its instruction drives the `cmd` port with that word. -/
theorem exec_of_decodeCommand {w : Byte} {i : Instr} (h : decodeCommand s.params.chsel w = .ok i) :
    exec i s = .next ((s.setCmd w).goto .sending) := by
  simp only [decodeCommand] at h
  split_ifs at h with h0 h1 h2 h3 h4 h5 h6 h7 <;> cases h
  exacts [driveCommand_of_masked h0, driveCommand_of_masked h1, driveCommand_of_masked h2, driveCommand_of_masked h3,
    driveCommand_of_masked h4, driveCommand_of_masked h5, driveCommand_of_masked h6, driveCommand_of_masked h7]

theorem runWord_transition {w : PortWord} (hp : s.point = .word w) (h : runWord w s = .next t) : Transition s t := by
  cases w with
  | cmd8 w =>
    simp only [runWord, decode] at h
    split at h
    next i hd =>
      rw [exec_of_decodeCommand hd] at h
      cases h
      exact .commandDriven hp hd
    next => cases h
  | frame16 w => cases h; exact .codeExtracted hp
  | code12u w => cases h; exact .unipolarConverted hp
  | code12b w => cases h; exact .bipolarConverted hp

theorem stepSend_transition (hp : s.point = .sending) (h : stepSend s = .next t) : Transition s t := by
  unfold stepSend at h
  split_ifs at h with hh
  split at h
  next => cases h
  next i hd =>
    cases ho : s.oracle.sends with
    | nil =>
      rw [memWrite_unanswered ho] at h
      cases h
      exact .ofUnanswered hp rfl fun ha => ha ho
    | cons a rest =>
      rw [memWrite_answered ho] at h
      split_ifs at h with ha
      · cases h; exact .sent hp hh hd ho ha
      · cases h; exact .sendFailed hp hh hd ho ha

theorem recvFrame_transition (hp : s.point = .readLoop) (hk : 0 < s.k) (h : recvFrame s = .next t) :
    Transition s t := by
  unfold recvFrame at h
  split_ifs at h with hh
  cases ho : s.oracle.recvs with
  | nil =>
    rw [memRead_unanswered ho] at h
    cases h
    exact .ofUnanswered hp (if_pos hk) fun ha => ha hk ho
  | cons a rest =>
    rw [memRead_answered ho] at h
    split at h
    next b0 b1 ha => cases h; exact .received hp hk hh ho ha
    next ha => cases h; exact .recvFailed hp hk hh ho ha

theorem stepReadLoop_transition (hp : s.point = .readLoop) (h : stepReadLoop s = .next t) : Transition s t := by
  unfold stepReadLoop at h
  split_ifs at h with hk
  · exact recvFrame_transition hp hk h
  · split at h
    next v hl => cases h; exact .readsDone hp hk hl
    next => cases h

theorem stepReturned_transition {r : SampleResult} (hp : s.point = .returned r) (h : stepReturned r s = .next t) :
    Transition s t := by
  unfold stepReturned at h
  split at h
  next => cases h; exact .sampleFailed hp
  next hc => cases h; exact .reported hp hc
  next hc => cases h; exact .directRests hp hc

theorem stepClose_transition {failure : Option ErrorKind} (hp : s.point = .closing failure)
    (h : stepClose failure s = .next t) : Transition s t := by
  unfold stepClose at h
  split_ifs at h with hh
  cases h
  exact .closed hp hh

theorem stepRelease_transition (hp : s.point = .releasing) (h : stepRelease s = .next t) : Transition s t := by
  unfold stepRelease at h
  split_ifs at h with hh
  cases h
  exact .released hp hh

/-- Every step is one of the transitions. -/
theorem step_transition (h : step s = .next t) : Transition s t := by
  unfold step at h
  split at h
  next hp => exact stepOpen_transition hp h
  next hp => exact stepBind_transition hp h
  next hp => exact stepLoopHead_transition hp h
  next hp => exact stepSampleEntry_transition hp h
  next w hp => exact runWord_transition hp h
  next hp => exact stepSend_transition hp h
  next hp => exact stepReadLoop_transition hp h
  next hp => cases h; exact .readCounted hp
  next r hp => exact stepReturned_transition hp h
  next failure hp => exact stepClose_transition hp h
  next hp => exact stepRelease_transition hp h
  next hp => cases h; exact .stays (.inl hp)
  next hp => cases h; exact .stays (.inr hp)

end

/-! ### The invariant of the sequence -/

/-- The clauses of the invariant that hold at every control location alike. -/
def recordsInv (s : State) : Prop :=
  s.params.Legal ∧ s.i ≤ 8 ∧ s.reports.map Prod.fst = List.range s.i ∧ s.vref = vrefLike s.vref ∧
    (∀ r ∈ s.reports, r.2.format = s.vref.format) ∧ (∀ v, s.last = some v → v.format = s.vref.format)

section
variable {s t : State} {p : Point}

theorem sequenceInv_iff :
    sequenceInv s ↔ recordsInv s ∧ (s.pending = none ∨ s.pending = nextCall s) ∧ pointOk s := by
  simp only [sequenceInv, recordsInv, and_assoc]

theorem sequenceInv.records (hs : sequenceInv s) : recordsInv s := (sequenceInv_iff.1 hs).1

/-- The invariant's clause on the control location, with the location made explicit so that it computes. -/
theorem sequenceInv.pointOk_at (hs : sequenceInv s) (hp : s.point = p) : pointOk (s.goto p) := by
  subst hp
  exact (sequenceInv_iff.1 hs).2.2

/-- Where the control location makes no call, none is pending. -/
theorem sequenceInv.pending_eq_none (hs : sequenceInv s) (hp : s.point = p) (hn : nextCall (s.goto p) = none) :
    s.pending = none := by
  subst hp
  exact (sequenceInv_iff.1 hs).2.1.elim id fun h => h.trans hn

/-- With no call pending, the records and the control location make the invariant. -/
theorem sequenceInv_of_not_pending (hr : recordsInv s) (hn : s.pending = none) (hp : pointOk s) : sequenceInv s :=
  sequenceInv_iff.2 ⟨hr, .inl hn, hp⟩

/-- Issuing the call of the control location keeps the invariant: the call is then the pending one (R50). -/
theorem sequenceInv.issue {c : BusCall} (hs : sequenceInv s) (hc : nextCall s = some c) : sequenceInv (s.issue c) := by
  obtain ⟨hr, -, hp⟩ := sequenceInv_iff.1 hs
  exact sequenceInv_iff.2 ⟨hr, .inr hc.symm, hp⟩

/-- The `vref` port carries VREF already. -/
theorem recordsInv.driveVref_eq (h : recordsInv s) : s.driveVref = s := by
  obtain ⟨-, -, -, hvref, -, -⟩ := h
  rw [State.driveVref, ← hvref]

theorem recordsInv.i_le (h : recordsInv s) : s.i ≤ 8 := h.2.1

/-- The sweep's first channel is 0, where the index stands already. -/
theorem recordsInv.firstChannel (h : recordsInv s) (hi : s.i = 0) : recordsInv s.firstChannel := by
  rwa [State.firstChannel, ← hi]

/-- Dropping the voltages keeps the records. -/
theorem recordsInv.dropReads (h : recordsInv s) : recordsInv s.dropReads := by
  obtain ⟨hlegal, hi, hfst, hvref, hfmt, -⟩ := h
  exact ⟨hlegal, hi, hfst, hvref, hfmt, nofun⟩

/-- The datum of a voltage has the format of the reference (R13). -/
@[simp] theorem voltDatum_format (s : State) (v : FpVal) : (voltDatum s v).format = s.vref.format := by
  cases v with
  | nan => exact (quietNan_isQuietNan _ _).2
  | val neg mag => exact fpPack_format _ _ _

/-- Keeping a voltage keeps the records. -/
theorem recordsInv.takeVolt (h : recordsInv s) (v : FpVal) : recordsInv (s.takeVolt v) := by
  obtain ⟨hlegal, hi, hfst, hvref, hfmt, -⟩ := h
  refine ⟨hlegal, hi, hfst, hvref, hfmt, ?_⟩
  rintro _ ⟨⟩
  exact voltDatum_format s v

/-- Reporting the last voltage for a channel below 8 keeps the records (R143). -/
theorem recordsInv.report {v : Fp} (h : recordsInv s) (hi : s.i ≤ 7) (hl : s.last = some v) :
    recordsInv (s.report v) := by
  obtain ⟨hlegal, -, hfst, hvref, hfmt, hlast⟩ := h
  refine ⟨hlegal, Nat.succ_le_succ hi, ?_, hvref,
    List.forall_mem_append.2 ⟨hfmt, List.forall_mem_singleton.2 (hlast v hl)⟩, hlast⟩
  simp [State.report, hfst, List.range_succ]

/-- The code of a frame arrives under the mode of the command byte (R138). -/
theorem pointOk_codeWord (h : inReads s) (hk : 1 ≤ s.k) (code : Code) :
    pointOk (s.goto (.word (codeWord (modeOf s.cmd) code))) := by
  cases hm : modeOf s.cmd with
  | unipolar => exact ⟨h, hk, hm⟩
  | bipolar => exact ⟨h, hk, hm⟩

/-- CLOSE ends the run with a status that fits how far the sweep came (R144). -/
theorem pointOk_close {failure : Option ErrorKind} (h : pointOk (s.goto (.closing failure))) :
    pointOk (s.close.finish (finalStatus failure)) := by
  cases failure with
  | none =>
    obtain ⟨-, -, hi⟩ := h
    exact ⟨rfl, nofun, fun _ => hi⟩
  | some kind => exact ⟨rfl, nofun, nofun⟩

/-- Every transition keeps the invariant. The operations that write none of the records leave `recordsInv` as it stands,
and an answered call is no longer pending. -/
theorem Transition.keeps_sequenceInv (h : Transition s t) (hs : sequenceInv s) : sequenceInv t := by
  have hr := hs.records
  cases h with
  | unanswered hc => exact hs.issue hc
  | opened hp =>
    obtain ⟨-, hrun, hi⟩ := hs.pointOk_at hp
    exact sequenceInv_of_not_pending hr rfl ⟨rfl, hrun, hi⟩
  | openFailed hp hh => exact sequenceInv_of_not_pending hr rfl ⟨hh, nofun, nofun⟩
  | bound hp =>
    obtain ⟨-, hrun, hi⟩ := hs.pointOk_at hp
    exact sequenceInv_of_not_pending (hr.firstChannel hi) rfl ⟨rfl, hrun⟩
  | bindFailed hp hh =>
    obtain ⟨hopen, hrun, -⟩ := hs.pointOk_at hp
    exact sequenceInv_of_not_pending hr rfl ⟨hopen.trans_ne nofun, hrun⟩
  | nextChannel hp hi =>
    obtain ⟨hb, hrun⟩ := hs.pointOk_at hp
    exact sequenceInv_of_not_pending hr (hs.pending_eq_none hp rfl) ⟨hb, hrun, fun _ => ⟨rfl, hi⟩⟩
  | sweepDone hp hi =>
    obtain ⟨hb, hrun⟩ := hs.pointOk_at hp
    have hi8 : s.i = 8 := le_antisymm hr.i_le (not_le.1 hi)
    exact sequenceInv_of_not_pending hr (hs.pending_eq_none hp rfl) ⟨hb.trans_ne nofun, hrun, hi8⟩
  | sampleEntered hp =>
    have hin : inSample s := hs.pointOk_at hp
    rw [hr.driveVref_eq]
    exact sequenceInv_of_not_pending hr (hs.pending_eq_none hp rfl) ⟨hin, rfl⟩
  | commandDriven hp =>
    obtain ⟨hin, hw⟩ := hs.pointOk_at hp
    exact sequenceInv_of_not_pending hr (hs.pending_eq_none hp rfl) ⟨hin, hw⟩
  | codeExtracted hp =>
    obtain ⟨hin, hk⟩ := hs.pointOk_at hp
    exact sequenceInv_of_not_pending hr (hs.pending_eq_none hp rfl) (pointOk_codeWord hin hk _)
  | unipolarConverted hp =>
    obtain ⟨hin, hk, -⟩ := hs.pointOk_at hp
    exact sequenceInv_of_not_pending (hr.takeVolt _) (hs.pending_eq_none hp rfl) ⟨hin, hk, nofun⟩
  | bipolarConverted hp =>
    obtain ⟨hin, hk, -⟩ := hs.pointOk_at hp
    exact sequenceInv_of_not_pending (hr.takeVolt _) (hs.pending_eq_none hp rfl) ⟨hin, hk, nofun⟩
  | sent hp =>
    obtain ⟨hin, hcmd⟩ := hs.pointOk_at hp
    have hk : max s.call.repeatCount 1 ≠ 0 := by omega
    exact sequenceInv_of_not_pending hr.dropReads rfl ⟨⟨hin, hcmd, le_rfl⟩, fun h0 => absurd h0 hk⟩
  | sendFailed hp =>
    obtain ⟨hin, -⟩ := hs.pointOk_at hp
    exact sequenceInv_of_not_pending hr rfl ⟨hin, .inl rfl⟩
  | received hp hk =>
    obtain ⟨hin, -⟩ := hs.pointOk_at hp
    exact sequenceInv_of_not_pending hr rfl ⟨hin, hk⟩
  | recvFailed hp =>
    obtain ⟨⟨hin, -, -⟩, -⟩ := hs.pointOk_at hp
    exact sequenceInv_of_not_pending hr.dropReads rfl ⟨hin, .inr ⟨rfl, rfl⟩⟩
  | readsDone hp hk hl =>
    obtain ⟨⟨hin, -, -⟩, -⟩ := hs.pointOk_at hp
    have hn : nextCall (s.goto .readLoop) = none := if_neg hk
    exact sequenceInv_of_not_pending hr (hs.pending_eq_none hp hn) ⟨hin, hl⟩
  | readCounted hp =>
    obtain ⟨⟨hin, hcmd, hle⟩, -, hlast⟩ := hs.pointOk_at hp
    exact sequenceInv_of_not_pending hr (hs.pending_eq_none hp rfl)
      ⟨⟨hin, hcmd, (Nat.sub_le _ _).trans hle⟩, fun _ => hlast⟩
  | sampleFailed hp =>
    obtain ⟨⟨hb, hrun, -⟩, -⟩ := hs.pointOk_at hp
    exact sequenceInv_of_not_pending hr (hs.pending_eq_none hp rfl) ⟨hb.trans_ne nofun, hrun⟩
  | reported hp hc =>
    obtain ⟨⟨hb, hrun, hsweep⟩, hlast⟩ := hs.pointOk_at hp
    obtain ⟨-, hi⟩ := hsweep hc
    exact sequenceInv_of_not_pending (hr.report hi hlast) (hs.pending_eq_none hp rfl) ⟨hb, hrun⟩
  | directRests => exact hs
  | closed hp =>
    exact sequenceInv_of_not_pending hr (hs.pending_eq_none hp rfl) (pointOk_close (hs.pointOk_at hp))
  | released hp =>
    obtain ⟨-, hrun⟩ := hs.pointOk_at hp
    exact sequenceInv_of_not_pending hr (hs.pending_eq_none hp rfl) ⟨rfl, hrun⟩
  | stays => exact hs

end

/-- Settles O52: every step is a transition, and every transition keeps the invariant. -/
theorem everyStepKeepsTheInvariant : Obligations.EveryStepKeepsTheInvariant :=
  fun _ _ hs h => (step_transition h).keeps_sequenceInv hs

/-- The default parameters are legal (R63, R15). -/
theorem paramsDefault_legal : Config.paramsDefault.Legal := by decide

/-- Settles O51: at reset nothing is reported, no voltage is kept and no call is pending. -/
theorem resetMeetsTheInvariant : Obligations.ResetMeetsTheInvariant :=
  sequenceInv_of_not_pending ⟨paramsDefault_legal, by decide, rfl, rfl, nofun, nofun⟩ rfl ⟨rfl, rfl, rfl⟩

/-- Settles O34. -/
theorem resetIsTheStartOfARun : Obligations.ResetIsTheStartOfARun := ⟨rfl, rfl, rfl, rfl, rfl⟩

/-! ### The frame of the instructions -/

/-- Settles O31: each meaning is one update of the state, which writes its result and the control location. -/
theorem blockOperationsTouchOnlyTheirResult : Obligations.BlockOperationsTouchOnlyTheirResult := by
  intro i s
  cases i with
  | extract b0 b1 => exact ⟨_, rfl, by and_intros <;> rfl⟩
  | tovoltUni u => exact ⟨_, rfl, by and_intros <;> rfl⟩
  | tovoltBip sgn mag => exact ⟨_, rfl, by and_intros <;> rfl⟩
  | _ => exact ⟨_, rfl, by and_intros <;> rfl⟩

end Sys2Proof.Machine
end

section
/-! SUPPORT. The bus and the parameters (20_memory): what an unanswered call does, what a step writes of the parameters, and
which calls a step makes. -/

namespace Sys2Proof.Machine

/-! ### A call that is never answered -/

/-- A byte whose bits under the mask are the pattern of some channel is a command byte (R65). -/
theorem exists_decodeCommand_eq_ok {t : ChannelTable} {w : Byte} {n : Fin 8} (h : w &&& commandMask = t.sel n) :
    ∃ i, decodeCommand t w = .ok i := by
  simp only [decodeCommand]
  split_ifs with h0 h1 h2 h3 h4 h5 h6 h7
  case neg =>
    have hnone : ∀ n : Fin 8, w &&& commandMask ≠ t.sel n := by
      simpa [Fin.forall_fin_succ] using And.intro h0 ⟨h1, h2, h3, h4, h5, h6, h7⟩
    exact absurd h (hnone n)
  all_goals exact ⟨_, rfl⟩

/-- The decoder accepts every command byte that ENCODE drives (R65, R91). -/
theorem exists_decodeCommand_encodeCommand {p : Params} (h : p.Legal) (chan : Nat) (mode : PolarityMode) :
    ∃ i, decodeCommand p.chsel (encodeCommand p chan mode) = .ok i := by
  obtain ⟨⟨hlow, -⟩, -⟩ := h
  exact exists_decodeCommand_eq_ok (commandByte_masked _ _ (hlow _))

section
variable {s t : State} {p : Point} {c : BusCall}

theorem stepOpen_unanswered (hh : s.handle = .closed) (ho : s.oracle.opens = []) :
    stepOpen s = .next (s.issue (.openBus s.params.busPath)) := by
  rw [stepOpen, if_pos hh, callOpen_unanswered ho]

theorem stepBind_unanswered (hh : s.handle = .opened) (ho : s.oracle.binds = []) :
    stepBind s = .next (s.issue (.bind Config.peer)) := by
  rw [stepBind, if_pos hh, callBind_unanswered ho]

theorem stepSend_unanswered {i : Instr} (hh : s.handle = .bound) (hd : decodeCommand s.params.chsel s.cmd = .ok i)
    (ho : s.oracle.sends = []) : stepSend s = .next (s.issue (.send [s.cmd])) := by
  simp only [stepSend, if_pos hh, hd, memWrite_unanswered ho]

theorem stepReadLoop_unanswered (hk : 0 < s.k) (hh : s.handle = .bound) (ho : s.oracle.recvs = []) :
    stepReadLoop s = .next (s.issue (.recv 2)) := by
  rw [stepReadLoop, if_pos hk, recvFrame, if_pos hh, memRead_unanswered ho]

/-- The four control locations that make a call the sequence waits for (R130 to R133). -/
theorem nextCall_cases (h : nextCall s = some c) :
    s.point = .openBus ∧ c = .openBus s.params.busPath ∨ s.point = .bindPeer ∧ c = .bind Config.peer ∨
      s.point = .sending ∧ c = .send [s.cmd] ∨ s.point = .readLoop ∧ 0 < s.k ∧ c = .recv 2 := by
  unfold nextCall at h
  split at h
  next hp => cases h; exact .inl ⟨hp, rfl⟩
  next hp => cases h; exact .inr (.inl ⟨hp, rfl⟩)
  next hp => cases h; exact .inr (.inr (.inl ⟨hp, rfl⟩))
  next hp =>
    split_ifs at h with hk
    cases h
    exact .inr (.inr (.inr ⟨hp, hk, rfl⟩))
  next => cases h

/-- Where the sequence is over it makes no call. -/
theorem nextCall_of_isOver (h : isOver s) : nextCall s = none := by
  unfold isOver at h
  split at h
  next hp => simp only [nextCall, hp]
  next hp => simp only [nextCall, hp]
  next hp => simp only [nextCall, hp]
  next => exact h.elim

/-- A run that makes a call is still going on. -/
theorem sequenceInv.status_running (hs : sequenceInv s) (hc : nextCall s = some c) : s.status = .running := by
  obtain ⟨hp, -⟩ | ⟨hp, -⟩ | ⟨hp, -⟩ | ⟨hp, -⟩ := nextCall_cases hc
  · obtain ⟨-, hrun, -⟩ := hs.pointOk_at hp
    exact hrun
  · obtain ⟨-, hrun, -⟩ := hs.pointOk_at hp
    exact hrun
  · obtain ⟨⟨-, hrun, -⟩, -⟩ := hs.pointOk_at hp
    exact hrun
  · obtain ⟨⟨⟨-, hrun, -⟩, -⟩, -⟩ := hs.pointOk_at hp
    exact hrun

/-- From a state of the invariant, a step whose call the oracle does not answer issues the call and does nothing else
(R54): the invariant gives each call the handle it needs, and SEND a command byte. -/
theorem sequenceInv.step_unanswered (hs : sequenceInv s) (hc : nextCall s = some c) (ho : ¬ oracleAnswers s) :
    step s = .next (s.issue c) := by
  obtain ⟨hp, rfl⟩ | ⟨hp, rfl⟩ | ⟨hp, rfl⟩ | ⟨hp, hk, rfl⟩ := nextCall_cases hc
  · obtain ⟨hh : s.handle = .closed, -, -⟩ := hs.pointOk_at hp
    simp only [oracleAnswers, hp, not_not] at ho
    simp only [step, hp, stepOpen_unanswered hh ho]
  · obtain ⟨hh : s.handle = .opened, -, -⟩ := hs.pointOk_at hp
    simp only [oracleAnswers, hp, not_not] at ho
    simp only [step, hp, stepBind_unanswered hh ho]
  · obtain ⟨⟨hh : s.handle = .bound, -, -⟩, hcmd : s.cmd = encodeCommand s.params s.call.chan s.call.mode⟩ :=
      hs.pointOk_at hp
    obtain ⟨hlegal, -⟩ := hs.records
    obtain ⟨i, hd⟩ := exists_decodeCommand_encodeCommand hlegal s.call.chan s.call.mode
    rw [← hcmd] at hd
    simp only [oracleAnswers, hp, not_not] at ho
    simp only [step, hp, stepSend_unanswered hh hd ho]
  · obtain ⟨⟨⟨hh, -, -⟩, -, -⟩, -⟩ := hs.pointOk_at hp
    simp only [oracleAnswers, hp, hk, forall_const, not_not] at ho
    simp only [step, hp, stepReadLoop_unanswered hk hh ho]

/-! ### What a transition leaves unchanged, and the calls it makes -/

/-- VREF is a datum of the reference's own format (R11, R13). -/
@[simp] theorem vrefLike_format (x : Fp) : (vrefLike x).format = x.format := by
  cases x with
  | b32 w => rfl
  | b64 w => rfl

/-- No transition writes a parameter. -/
theorem Transition.params_eq (h : Transition s t) : t.params = s.params := by
  cases h <;> rfl

/-- The entry of SAMPLE alone drives the `vref` port, and keeps its format. -/
theorem Transition.vref_format (h : Transition s t) : t.vref.format = s.vref.format := by
  cases h with
  | sampleEntered => exact vrefLike_format s.vref
  | _ => rfl

/-- The trace after a step that issues the call of its control location: unchanged where the call is pending already. -/
theorem issue_trace_of_nextCall (hp : s.point = p) (hc : nextCall (s.goto p) = some c) :
    (s.issue c).trace = s.trace ∨ ∃ d, nextCall s = some d ∧ (s.issue c).trace = s.trace ++ [d] := by
  subst hp
  rw [State.issue_trace]
  split_ifs with hpending
  · exact .inl rfl
  · exact .inr ⟨c, hc, rfl⟩

/-- What a transition may add to the trace: nothing, the call of its control location, or CLOSE where CLOSE is next. -/
theorem Transition.trace_cases (h : Transition s t) :
    (t.trace = s.trace ∨ ∃ c, nextCall s = some c ∧ t.trace = s.trace ++ [c]) ∨
      ((∃ failure, s.point = .closing failure) ∨ s.point = .releasing) ∧ t.trace = s.trace ++ [.close] := by
  cases h with
  | unanswered hc => exact .inl (issue_trace_of_nextCall rfl hc)
  | opened hp | openFailed hp | bound hp | bindFailed hp | sent hp | sendFailed hp =>
    exact .inl (issue_trace_of_nextCall hp rfl)
  | received hp hk | recvFailed hp hk => exact .inl (issue_trace_of_nextCall hp (if_pos hk))
  | closed hp => exact .inr ⟨.inl ⟨_, hp⟩, rfl⟩
  | released hp => exact .inr ⟨.inr hp, rfl⟩
  | _ => exact .inl (.inl rfl)

end

/-- Settles O45: the state with the call pending meets the invariant and waits for the same call, so its step issues a call
that is pending already, which changes nothing. -/
theorem unansweredCallIsStuck : Obligations.UnansweredCallIsStuck := by
  intro s c hs hc ho
  have hstuck : step (s.issue c) = .next (s.issue c) := by
    have hstep := (hs.issue hc).step_unanswered hc ho
    rwa [State.issue_of_pending _ (State.issue_pending s c)] at hstep
  have hover : ¬ isOver s := fun h => Option.some_ne_none c (hc.symm.trans (nextCall_of_isOver h))
  refine ⟨hs.step_unanswered hc ho, hstuck, hover, hs.status_running hc, rfl, rfl, rfl, fun hn => ?_⟩
  simp [hn]

/-- Settles O57. -/
theorem parametersAreNeverWritten : Obligations.ParametersAreNeverWritten :=
  fun _ _ h => ⟨(step_transition h).params_eq, (step_transition h).vref_format⟩

/-- Settles O58: a step is a transition, and each adds at most one call. -/
theorem oneBusCallAStep : Obligations.OneBusCallAStep :=
  fun _ _ h => or_assoc.1 (step_transition h).trace_cases

end Sys2Proof.Machine
end

section
/-! SUPPORT. Words, decoder and encoder (30_encoding): which bytes are command words and which instruction each stands for,
from which the decoder and the encoder are inverse; then the step that runs a decoded word. -/

namespace Sys2Proof

/-! ### Command bytes -/

/-- With polarity 1 a command byte is its pattern with bit 3 set (R64). -/
theorem commandByte_one (sel : Byte) : commandByte sel 1#1 = sel ||| 0x08#8 := rfl

/-- With polarity 0 a command byte is its pattern (R64). -/
theorem commandByte_zero (sel : Byte) : commandByte sel 0#1 = sel := BitVec.or_zero

/-- Under a legal table a command byte determines its channel and its polarity (R63, R64). -/
theorem commandByte_sel_inj {t : ChannelTable} {m n : Fin 8} {u v : BitVec 1} (ht : t.Legal)
    (h : commandByte (t.sel m) u = commandByte (t.sel n) v) : m = n ∧ u = v := by
  obtain ⟨hlow, hdist⟩ := ht
  constructor
  · apply hdist
    rw [← commandByte_masked (t.sel m) u (hlow m), h, commandByte_masked (t.sel n) v (hlow n)]
  · rw [← polarityBit_commandByte (t.sel m) u (hlow m), h, polarityBit_commandByte (t.sel n) v (hlow n)]

/-- A command byte is one of the two bytes of its pattern (R64). -/
theorem commandByte_cases (sel : Byte) (u : BitVec 1) :
    commandByte sel u = sel ||| 0x08#8 ∨ commandByte sel u = sel := by
  obtain rfl | rfl := BitVec.eq_zero_or_eq_one u
  · exact .inr (commandByte_zero sel)
  · exact .inl (commandByte_one sel)

/-! ### Decoder and encoder -/

/-- The instruction of row CH`n` (R83 to R90). -/
def commandInstr : Fin 8 → BitVec 1 → Instr
  | 0 => .ch0
  | 1 => .ch1
  | 2 => .ch2
  | 3 => .ch3
  | 4 => .ch4
  | 5 => .ch5
  | 6 => .ch6
  | 7 => .ch7

section
variable {t : ChannelTable} {w : Byte} {n : Fin 8}

/-- The word of row CH`n` (R61). -/
theorem encode_commandInstr (t : ChannelTable) (n : Fin 8) (u : BitVec 1) :
    encode t (commandInstr n u) = .cmd8 (commandByte (t.sel n) u) := by
  fin_cases n <;> rfl

/-- A byte whose bits under the mask are the pattern of channel `n` is the word of row CH`n` (R65): no earlier row matches
it, since the patterns are distinct (R63). -/
theorem decodeCommand_of_masked (ht : t.Distinct) (h : w &&& commandMask = t.sel n) :
    decodeCommand t w = .ok (commandInstr n (polarityBit w)) := by
  have hsel : ∀ m, t.sel n = t.sel m ↔ n = m := fun m => ⟨ht n m, congrArg t.sel⟩
  simp only [decodeCommand, h, hsel]
  fin_cases n <;> rfl

/-- A byte whose bits under the mask are no channel's pattern is no command word (R66). -/
theorem decodeCommand_of_not_masked (h : ∀ n, w &&& commandMask ≠ t.sel n) :
    decodeCommand t w = .error (.notACommandByte w) := by
  simp [decodeCommand, h]

/-- The decoder of command words accepts what matches a row, and nothing else (R65, R66). -/
theorem decodeCommand_eq_ok_iff {i : Instr} (ht : t.Distinct) :
    decodeCommand t w = .ok i ↔ ∃ n, w &&& commandMask = t.sel n ∧ commandInstr n (polarityBit w) = i := by
  constructor
  · intro h
    by_cases hm : ∃ n, w &&& commandMask = t.sel n
    · obtain ⟨n, hn⟩ := hm
      rw [decodeCommand_of_masked ht hn] at h
      exact ⟨n, hn, Except.ok.inj h⟩
    · rw [decodeCommand_of_not_masked (not_exists.1 hm)] at h
      cases h
  · rintro ⟨n, hn, rfl⟩
    exact decodeCommand_of_masked ht hn

/-- Decoding the word of row CH`n` gives the row's instruction back. -/
theorem decode_encode_commandInstr (ht : t.Legal) (n : Fin 8) (u : BitVec 1) :
    decode t (encode t (commandInstr n u)) = .ok (commandInstr n u) := by
  obtain ⟨hlow, hdist⟩ := ht
  rw [encode_commandInstr, decode, decodeCommand_of_masked hdist (commandByte_masked _ u (hlow n)),
    polarityBit_commandByte _ u (hlow n)]

end

/-- Settles O1. A command word keeps its pattern under the mask and its polarity at bit 3; a frame and a bipolar code are
their two fields side by side; a unipolar code is its one field. -/
theorem decodeOfEncodeIsTheInstruction : Obligations.DecodeOfEncodeIsTheInstruction := by
  intro t ht i
  cases i with
  | ch0 u => exact decode_encode_commandInstr ht 0 u
  | ch1 u => exact decode_encode_commandInstr ht 1 u
  | ch2 u => exact decode_encode_commandInstr ht 2 u
  | ch3 u => exact decode_encode_commandInstr ht 3 u
  | ch4 u => exact decode_encode_commandInstr ht 4 u
  | ch5 u => exact decode_encode_commandInstr ht 5 u
  | ch6 u => exact decode_encode_commandInstr ht 6 u
  | ch7 u => exact decode_encode_commandInstr ht 7 u
  | extract b0 b1 => rw [encode, decode, decodeFrame, frame_first, frame_second]
  | tovoltUni u => rfl
  | tovoltBip s mag => rw [encode, decode, decodeBipolar, code_sign, code_mag]

/-- The word of what a word decodes to is that word, on every port. -/
theorem encode_of_decode {t : ChannelTable} {w : PortWord} {i : Instr} (ht : t.Distinct) (h : decode t w = .ok i) :
    encode t i = w := by
  cases w with
  | cmd8 w =>
    obtain ⟨n, hn, rfl⟩ := (decodeCommand_eq_ok_iff ht).1 h
    rw [encode_commandInstr, ← hn, commandByte_of_masked]
  | frame16 w =>
    cases h
    exact congrArg PortWord.frame16 BitVec.extractLsb'_append_extractLsb'
  | code12u w => cases h; rfl
  | code12b w =>
    cases h
    exact congrArg PortWord.code12b BitVec.extractLsb'_append_extractLsb'

/-- Settles O2: the decoder and the encoder are inverse. -/
theorem eachWordHasOneMeaning : Obligations.EachWordHasOneMeaning := by
  intro t ht w i
  have ⟨_, hdist⟩ := ht
  constructor
  · exact encode_of_decode hdist
  · rintro rfl
    exact decodeOfEncodeIsTheInstruction t ht i

/-- Settles O5: five of the words are those the encoder writes, and `0x84` matches no row of the default table. -/
theorem wordsWrittenOutDecode : Obligations.WordsWrittenOutDecode := by
  have hdecode {w : PortWord} {i : Instr} : encode Config.chselDefault i = w → decode Config.chselDefault w = .ok i :=
    (eachWordHasOneMeaning _ (by decide) w i).2
  have hother : ∀ n, 0x84#8 &&& commandMask ≠ Config.chselDefault.sel n := by decide
  exact ⟨hdecode rfl, hdecode rfl, decodeCommand_of_not_masked hother, hdecode rfl, hdecode rfl, hdecode rfl⟩

end Sys2Proof

namespace Sys2Proof.Machine

/-! ### ENCODE and SEND -/

/-- The sixteen command bytes of a legal table are pairwise distinct (R65). -/
theorem commandBytes_nodup {t : ChannelTable} (ht : t.Legal) :
    ((List.finRange 8).flatMap fun n => [t.sel n ||| 0x08#8, t.sel n]).Nodup := by
  have hpairs : (List.finRange 8 ×ˢ [1#1, 0#1]).Nodup := (List.nodup_finRange 8).product (by decide)
  have hbytes : ((List.finRange 8 ×ˢ [1#1, 0#1]).map fun r => commandByte (t.sel r.1) r.2).Nodup :=
    hpairs.map fun r q h => Prod.ext_iff.2 (commandByte_sel_inj ht h)
  simpa [SProd.sprod, List.product, List.map_flatMap, commandByte_one, commandByte_zero] using hbytes

/-- A channel of the table fits every legal port, and ENCODE gives it its own pattern (R15, R91). -/
theorem encodeCommand_fin {p : Params} (hp : p.Legal) (n : Fin 8) (mode : PolarityMode) :
    n.val < 2 ^ p.chanw ∧ encodeCommand p n mode = commandByte (p.chsel.sel n) mode.bit := by
  obtain ⟨-, hw⟩ := hp
  have hport : 2 ^ 3 ≤ 2 ^ p.chanw := Nat.pow_le_pow_right Nat.two_pos hw
  have hlt : n.val < 2 ^ p.chanw := n.isLt.trans_le hport
  have hindex : tableIndex (chanOnPort p n) = n :=
    Fin.ext ((congrArg (· % 8) (Nat.mod_eq_of_lt hlt)).trans (Nat.mod_eq_of_lt n.isLt))
  exact ⟨hlt, by rw [encodeCommand, hindex]⟩

/-- What ENCODE produces on a legal port: the two bytes of each channel (R64, R91). -/
theorem exists_encodeCommand_iff {p : Params} (hp : p.Legal) (w : Byte) :
    (∃ (chan : Nat) (mode : PolarityMode), chan < 2 ^ p.chanw ∧ encodeCommand p chan mode = w) ↔
      ∃ n : Fin 8, w = p.chsel.sel n ||| 0x08#8 ∨ w = p.chsel.sel n := by
  constructor
  · rintro ⟨chan, mode, -, rfl⟩
    exact ⟨tableIndex (chanOnPort p chan), commandByte_cases _ _⟩
  · rintro ⟨n, rfl | rfl⟩
    · obtain ⟨hlt, henc⟩ := encodeCommand_fin hp n .unipolar
      exact ⟨n, .unipolar, hlt, henc.trans (commandByte_one _)⟩
    · obtain ⟨hlt, henc⟩ := encodeCommand_fin hp n .bipolar
      exact ⟨n, .bipolar, hlt, henc.trans (commandByte_zero _)⟩

/-- Settles O3: the two bytes of each channel, distinct because a command byte determines its channel and its polarity; the
default table's are computed. -/
theorem commandBytesAreTheSixteen : Obligations.CommandBytesAreTheSixteen := by
  refine ⟨fun p hp => ⟨exists_encodeCommand_iff hp, ?_⟩, by decide, by decide⟩
  obtain ⟨ht, -⟩ := hp
  exact commandBytes_nodup ht

/-- Settles O4: a byte is put together again from its bits under the mask and bit 3 (R62), so one that matches a row is one
of the row's two bytes. -/
theorem otherBytesAreRefused : Obligations.OtherBytesAreRefused := by
  intro s w _ hw
  have hmask : ∀ n, w &&& commandMask ≠ s.params.chsel.sel n := by
    intro n hn
    have hbyte := commandByte_cases (w &&& commandMask) (polarityBit w)
    rw [commandByte_of_masked, hn] at hbyte
    obtain ⟨hsel, hset⟩ := hw n
    exact hbyte.elim hset hsel
  have hd := decodeCommand_of_not_masked hmask
  refine ⟨hd, ?_⟩
  rintro hp hh rfl
  simp only [step, hp, stepSend, if_pos hh, hd]

/-! ### The step that runs a word -/

/-- Settles O32: at a word the step is `runWord`, which runs what the decoder answers. -/
theorem stepRunsTheDecodedInstruction : Obligations.StepRunsTheDecodedInstruction := by
  intro s w i hp hd
  simp only [step, hp, runWord, hd]

/-- A table word is read as an instruction where it stands on a port and the default table decodes it so. -/
theorem exists_tableWord_of_decodeTableWord {nbits w : Nat} {i : Instr} (h : decodeTableWord nbits w = some i) :
    ∃ p, tableWord nbits w = .ok p ∧ decode Config.chselDefault p = .ok i := by
  unfold decodeTableWord at h
  split at h
  next p hp =>
    cases hd : decode Config.chselDefault p with
    | ok j => rw [hd] at h; cases h; exact ⟨p, hp, hd⟩
    | error e => rw [hd] at h; cases h
  next => cases h

/-- Settles O33: the word that `withFetchWord` places is the one `decodeTableWord` decodes, and O32 runs it. -/
theorem placedWordIsRunNext : Obligations.PlacedWordIsRunNext := by
  intro s nbits w i ht h
  obtain ⟨p, hp, hd⟩ := exists_tableWord_of_decodeTableWord h
  have hplaced : s.withFetchWord nbits w = s.goto (.word p) := by rw [State.withFetchWord, hp]
  rw [← ht] at hd
  exact ⟨p, hplaced, hplaced ▸ stepRunsTheDecodedInstruction (s.goto (.word p)) p i rfl hd⟩

end Sys2Proof.Machine
end

section
/-! SUPPORT. The command encoder (41_command_encoder): the channel a byte is looked up for, the fields of the byte, the mode
read back from it, and the state that a command word leaves. -/

namespace Sys2Proof

/-- The high nibble of a command byte is its pattern's: the polarity bit lies below it (R62, R93). -/
theorem commandByte_highNibble (sel : Byte) (u : BitVec 1) :
    (commandByte sel u).extractLsb' 4 4 = sel.extractLsb' 4 4 := by
  obtain rfl | rfl := BitVec.eq_zero_or_eq_one u
  · rw [commandByte_zero]
  · have hbelow : (0x08#8).extractLsb' 4 4 = 0#4 := by decide
    rw [commandByte_one, BitVec.extractLsb'_or, hbelow, BitVec.or_zero]

/-- Command bytes of a legal table are equal exactly when their channels and their polarities are (R63, R64). -/
theorem commandByte_sel_eq_iff {t : ChannelTable} (ht : t.Legal) {m n : Fin 8} {u v : BitVec 1} :
    commandByte (t.sel m) u = commandByte (t.sel n) v ↔ m = n ∧ u = v := by
  constructor
  · exact commandByte_sel_inj ht
  · rintro ⟨rfl, rfl⟩
    rfl

/-- The bit of a mode determines the mode (R23). -/
theorem PolarityMode.bit_inj {m m' : PolarityMode} : m.bit = m'.bit ↔ m = m' :=
  (Function.LeftInverse.injective PolarityMode.ofBit_bit).eq_iff

/-- The polarity bit is set exactly where the mask 0x08 leaves something (R62). -/
theorem polarityBit_eq_one_iff (w : Byte) : polarityBit w = 1#1 ↔ w &&& 0x08#8 ≠ 0#8 := by
  have hmask : w &&& 0x08#8 = if w.getLsbD 3 then 0x08#8 else 0#8 := BitVec.and_twoPow w 3
  have hbit : polarityBit w = 1#1 ↔ w.getLsbD 3 := by
    rw [BitVec.getLsbD_eq_extractLsb', beq_iff_eq, polarityBit]
  rw [hmask, hbit]
  cases w.getLsbD 3 <;> decide

end Sys2Proof

namespace Sys2Proof.Machine

/-! ### ENCODE and MODEOF -/

section
variable {p : Params} {chan chan' : Nat} {mode mode' : PolarityMode}

/-- A channel that fits the port selects the entry of its residue modulo 8 (R81, R91). -/
theorem encodeCommand_of_lt (hc : chan < 2 ^ p.chanw) :
    encodeCommand p chan mode = commandByte (p.chsel.sel (tableIndex chan)) mode.bit := by
  rw [encodeCommand, chanOnPort, Nat.mod_eq_of_lt hc]

/-- Channels 8 apart share their entry (R81). -/
theorem tableIndex_add_eight (chan : Nat) : tableIndex (chan + 8) = tableIndex chan :=
  Fin.ext (Nat.add_mod_right chan 8)

/-- ENCODE wraps at 8, wherever the port carries the larger channel (R81). -/
theorem encodeCommand_add_eight (hc : chan + 8 < 2 ^ p.chanw) :
    encodeCommand p (chan + 8) mode = encodeCommand p chan mode := by
  rw [encodeCommand_of_lt hc, encodeCommand_of_lt (Nat.lt_of_add_right_lt hc), tableIndex_add_eight]

/-- ENCODE is injective on the channel modulo 8 and the mode, and depends on nothing else of them (R93). -/
theorem encodeCommand_eq_iff (hp : p.Legal) (hc : chan < 2 ^ p.chanw) (hc' : chan' < 2 ^ p.chanw) :
    encodeCommand p chan mode = encodeCommand p chan' mode' ↔ chan % 8 = chan' % 8 ∧ mode = mode' := by
  obtain ⟨ht, -⟩ := hp
  rw [encodeCommand_of_lt hc, encodeCommand_of_lt hc', commandByte_sel_eq_iff ht, PolarityMode.bit_inj]
  exact and_congr_left' Fin.ext_iff

/-- The word of row CH`n` is the byte ENCODE produces exactly for the channels of residue `n` and the mode of its polarity
(R83 to R91). -/
theorem encode_commandInstr_eq_encodeCommand_iff (hp : p.Legal) (hc : chan < 2 ^ p.chanw) (n : Fin 8) (u : BitVec 1) :
    encode p.chsel (commandInstr n u) = .cmd8 (encodeCommand p chan mode) ↔ chan % 8 = n.val ∧ u = mode.bit := by
  obtain ⟨ht, -⟩ := hp
  rw [encode_commandInstr, encodeCommand_of_lt hc, PortWord.cmd8.injEq, commandByte_sel_eq_iff ht, eq_comm (a := n)]
  exact and_congr_left' Fin.ext_iff

end

/-- MODEOF tests a byte against the mask 0x08 (R92). -/
theorem modeOf_eq_ite (w : Byte) : modeOf w = if w &&& 0x08#8 ≠ 0#8 then .unipolar else .bipolar :=
  if_congr (polarityBit_eq_one_iff w) rfl rfl

/-- The meaning of row CH`n`: it drives the `cmd` port with its byte and leaves the rest of the state, SEND next (R83 to
R90). -/
theorem exec_commandInstr (n : Fin 8) (u : BitVec 1) (s : State) :
    exec (commandInstr n u) s =
      .next { s with cmd := commandByte (s.params.chsel.sel n) u, point := .sending } := by
  fin_cases n <;> rfl

/-- Settles O7. The high nibble comes from the pattern and the other bits from the row's fields; the rest is that a command
byte determines its channel and its polarity. -/
theorem encodeFieldsAndInjectivity : Obligations.EncodeFieldsAndInjectivity := by
  intro p hp chan chan' mode mode' hc hc'
  have ⟨⟨hlow, _⟩, _⟩ := hp
  obtain ⟨-, hmode, hzero⟩ := Laws.commandByte_rowBits _ mode.bit (hlow (tableIndex chan))
  refine ⟨?_, ?_, ?_, ?_, encodeCommand_add_eight (chan := 0), encodeCommand_eq_iff hp hc hc'⟩
  · rw [encodeCommand_of_lt hc]
    exact commandByte_highNibble _ _
  · rw [encodeCommand_of_lt hc, hmode]
  · rw [encodeCommand_of_lt hc]
    exact hzero
  · rw [encodeCommand_of_lt hc, encodeCommand_of_lt hc]
    exact (commandByte_one _).trans (congrArg (· ||| 0x08#8) (commandByte_zero _).symm)

/-- Settles O8: MODEOF tests the mask 0x08, and a legal pattern leaves that bit to the mode. -/
theorem modeOfRecoversTheMode : Obligations.ModeOfRecoversTheMode :=
  ⟨modeOf_eq_ite, fun _ chan mode hp => modeOf_encodeCommand hp chan mode, by decide, by decide⟩

/-- Settles O9: each row is CH`n` for its own `n`. -/
theorem encodeProducesTheChannelsWord : Obligations.EncodeProducesTheChannelsWord := by
  intro p hp chan mode u hc
  have hrow (n : Fin 8) := encode_commandInstr_eq_encodeCommand_iff (mode := mode) hp hc n u
  exact ⟨hrow 0, hrow 1, hrow 2, hrow 3, hrow 4, hrow 5, hrow 6, hrow 7⟩

/-- Settles O6: the lookup depends on the residue modulo 8 of a channel that fits the port. -/
theorem encodeReducesChannelModuloEight : Obligations.EncodeReducesChannelModuloEight :=
  fun _ _ _ _ => ⟨encodeCommand_of_lt, fun hc => (encodeCommand_add_eight hc).symm⟩

/-- Settles O10: each row is CH`n` for its own `n`. -/
theorem commandWordsDriveTheCommandByte : Obligations.CommandWordsDriveTheCommandByte := by
  intro s u
  have hrow (n : Fin 8) := exec_commandInstr n u s
  exact ⟨hrow 0, hrow 1, hrow 2, hrow 3, hrow 4, hrow 5, hrow 6, hrow 7⟩

end Sys2Proof.Machine
end

section
/-! SUPPORT. What rounding to the format does (42_conversion_engine rule R102): the nearest magnitude field, ties to the
even one; the fields of small integers and of half a reference. -/

namespace Sys2Proof.Machine

/-! ### Rounding to nearest, ties to even -/

/-- Halfway between two integers, rounding gives the even one (R14). -/
theorem roundDiv_even_of_tie {n d : Nat} (hd : 0 < d)
    (h : 2 * n = 2 * (roundDiv n d * d) + d ∨ 2 * (roundDiv n d * d) = 2 * n + d) : roundDiv n d % 2 = 0 := by
  have hdm := Nat.div_add_mod' n d
  have hr := Nat.mod_lt n hd
  have htie : 2 * (n % d) = d := by
    obtain ⟨hlo, hhi⟩ := roundDiv_floor_or_next n d
    obtain he | he : roundDiv n d = n / d ∨ roundDiv n d = n / d + 1 := by omega
    · rw [he] at h; omega
    · rw [he, Nat.add_one_mul (n / d)] at h; omega
  have heven : roundDiv n d = n / d + n / d % 2 := by simp [roundDiv, htie]
  omega

section
variable {f : FpFormat} {n d sh q p : Nat}

/-- A field above that of a shift and a significand is larger by one unit of the significand at least. -/
theorem succ_mul_pow_le_quanta (hlo : sh = 0 ∨ 2 ^ f.fracBits ≤ q) (hhi : q ≤ 2 ^ (f.fracBits + 1))
    (hp : sh * 2 ^ f.fracBits + q < p) : (q + 1) * 2 ^ sh ≤ quanta f p := by
  refine le_trans ?_ ((quanta_strictMono f).monotone (Nat.succ_le_of_lt hp))
  have hP : 0 < 2 ^ f.fracBits := Nat.two_pow_pos _
  rcases hhi.lt_or_eq with hlt | rfl
  · exact (quanta_pack (hlo.imp_right Nat.le_succ_of_le) hlt).ge
  · have hnext : sh * 2 ^ f.fracBits + 2 ^ (f.fracBits + 1) + 1 = (sh + 1) * 2 ^ f.fracBits + (2 ^ f.fracBits + 1) := by
      ring
    have hdouble : 2 ^ (f.fracBits + 1) = 2 ^ f.fracBits * 2 := Nat.pow_succ ..
    rw [Nat.succ_eq_add_one, hnext, quanta_pack (.inr (Nat.le_succ _)) (by omega), Nat.pow_succ' (n := sh),
      ← Nat.mul_assoc]
    exact Nat.mul_le_mul_right _ (by omega)

/-- A field below that of a shift and a significand is smaller by one unit of the significand at least, where the
significand is not the least of its shift. -/
theorem quanta_add_pow_le (hlo : sh = 0 ∨ 2 ^ f.fracBits < q) (hhi : q ≤ 2 ^ (f.fracBits + 1))
    (hp : p < sh * 2 ^ f.fracBits + q) : quanta f p + 2 ^ sh ≤ q * 2 ^ sh := by
  obtain ⟨r, rfl⟩ : ∃ r, q = r + 1 := Nat.exists_eq_succ_of_ne_zero (by rcases hlo with rfl | h <;> omega)
  have hmono : quanta f p ≤ quanta f (sh * 2 ^ f.fracBits + r) := (quanta_strictMono f).monotone (Nat.le_of_lt_succ hp)
  rw [quanta_pack (hlo.imp_right Nat.le_of_lt_succ) (Nat.le_of_succ_le hhi)] at hmono
  rw [Nat.succ_mul]
  exact Nat.add_le_add_right hmono _

/-- The field that rounding picks before it looks at the largest finite value. -/
def roundedField (f : FpFormat) (n d : Nat) : Nat :=
  roundShift f n d * 2 ^ f.fracBits + roundDiv n (d * 2 ^ roundShift f n d)

theorem roundRatio_eq_min (f : FpFormat) (n d : Nat) : roundRatio f n d = min (roundedField f n d) (infMag f) := rfl

/-- The distance of the fields around the rounded one, times `d`. -/
def roundStep (f : FpFormat) (n d : Nat) : Nat := d * 2 ^ roundShift f n d

theorem roundStep_pos (hd : 0 < d) : 0 < roundStep f n d := Nat.mul_pos hd (Nat.two_pow_pos _)

/-- The rounded field's size is the rounded significand, in steps. -/
theorem quanta_roundedField_mul (hd : 0 < d) :
    quanta f (roundedField f n d) * d = roundDiv n (roundStep f n d) * roundStep f n d := by
  obtain ⟨hlo, hhi⟩ := significand_bounds (f := f) (n := n) hd
  rw [roundedField, quanta_pack hlo hhi, roundStep]
  ring

/-- The rounded field is within half a step of the exact value. -/
theorem roundedField_near (hd : 0 < d) :
    2 * (quanta f (roundedField f n d) * d) ≤ 2 * n + roundStep f n d ∧
      2 * n ≤ 2 * (quanta f (roundedField f n d) * d) + roundStep f n d := by
  rw [quanta_roundedField_mul hd]
  exact roundDiv_near (roundStep_pos hd)

/-- Where the exact value is half a step away, the rounded field is even. -/
theorem roundedField_even_of_tie (hf : f.fracBits ≠ 0) (hd : 0 < d)
    (h : 2 * n = 2 * (quanta f (roundedField f n d) * d) + roundStep f n d ∨
      2 * (quanta f (roundedField f n d) * d) = 2 * n + roundStep f n d) : roundedField f n d % 2 = 0 := by
  rw [quanta_roundedField_mul hd] at h
  have heven : roundDiv n (d * 2 ^ roundShift f n d) % 2 = 0 := roundDiv_even_of_tie (roundStep_pos hd) h
  simp [roundedField, Nat.add_mod, Nat.mul_mod, Nat.pow_mod, heven, hf]

/-- The fields above the rounded one are a step away from it at least. -/
theorem roundedField_add_step_le (hd : 0 < d) (hp : roundedField f n d < p) :
    quanta f (roundedField f n d) * d + roundStep f n d ≤ quanta f p * d := by
  obtain ⟨hlo, hhi⟩ := significand_bounds (f := f) (n := n) hd
  have h := Nat.mul_le_mul_right d (succ_mul_pow_le_quanta hlo hhi hp)
  rw [quanta_roundedField_mul hd, roundStep]
  linarith

/-- So are the fields below it where the exact value was rounded up, since the significand is then not the least of its
shift. -/
theorem quanta_add_step_le (hd : 0 < d) (hn : n < quanta f (roundedField f n d) * d) (hp : p < roundedField f n d) :
    quanta f p * d + roundStep f n d ≤ quanta f (roundedField f n d) * d := by
  rw [quanta_roundedField_mul hd] at hn ⊢
  obtain ⟨-, hhi⟩ := significand_bounds (f := f) (n := n) hd
  have hlo : roundShift f n d = 0 ∨ 2 ^ f.fracBits < roundDiv n (d * 2 ^ roundShift f n d) :=
    (quotient_bounds (f := f) (n := n) hd).1.imp_right fun h => Nat.lt_of_mul_lt_mul_right (h.trans_lt hn)
  have h := Nat.mul_le_mul_right d (quanta_add_pow_le hlo hhi hp)
  rw [roundStep]
  linarith

theorem roundingError_eq (f : FpFormat) (p n d : Nat) :
    roundingError f p n d = (((quanta f p * d : Nat) : Int) - n).natAbs := by
  rw [roundingError, Nat.cast_mul]

/-- No field is nearer than the rounded one, and where another is as near, the rounded one is even (R14). -/
theorem roundedField_nearest (hf : f.fracBits ≠ 0) (hd : 0 < d) (p : Nat) :
    roundingError f (roundedField f n d) n d ≤ roundingError f p n d ∧
      (roundingError f p n d = roundingError f (roundedField f n d) n d → p ≠ roundedField f n d →
        roundedField f n d % 2 = 0) := by
  obtain ⟨hbelow, habove⟩ := roundedField_near (f := f) (n := n) hd
  have heven := roundedField_even_of_tie (n := n) hf hd
  rw [roundingError_eq, roundingError_eq]
  rcases lt_trichotomy p (roundedField f n d) with hp | rfl | hp
  · have hless : quanta f p * d < quanta f (roundedField f n d) * d :=
      (Nat.mul_lt_mul_right hd).2 (quanta_strictMono f hp)
    have hstep := fun hn => quanta_add_step_le (n := n) hd hn hp
    exact ⟨by omega, fun he _ => heven (by omega)⟩
  · exact ⟨le_rfl, fun _ hne => absurd rfl hne⟩
  · have hstep := roundedField_add_step_le hd hp
    exact ⟨by omega, fun he _ => heven (by omega)⟩

end

/-- Rounding to the format is to nearest, ties to even, and past the largest finite value to infinity (R14). -/
theorem roundRatio_roundsNearestEven {f : FpFormat} {n d : Nat} (hf : f.fracBits ≠ 0) (hinf : 0 < infMag f) (hd : 0 < d) :
    roundsNearestEven f (roundRatio f n d) n d := by
  have hnear := roundedField_nearest (n := n) hf hd
  have hmono : StrictMono fun p => quanta f p * d := fun p q h => (Nat.mul_lt_mul_right hd).2 (quanta_strictMono f h)
  have hlast : quanta f (infMag f - 1) * d < quanta f (infMag f) * d := hmono (Nat.sub_lt hinf Nat.one_pos)
  have heven : infMag f % 2 = 0 := by simp [infMag, Nat.mul_mod, Nat.pow_mod _ f.fracBits, hf]
  rw [roundsNearestEven, roundRatio_eq_min, Nat.add_mul]
  split_ifs with hfin
  · have hlt : roundedField f n d < infMag f := by
      by_contra hge
      obtain ⟨hle, -⟩ := hnear (infMag f - 1)
      have hpast : quanta f (infMag f) * d ≤ quanta f (roundedField f n d) * d := hmono.monotone (not_lt.1 hge)
      rw [roundingError_eq, roundingError_eq] at hle
      omega
    rw [Nat.min_eq_left hlt.le]
    exact ⟨hlt, fun p _ => hnear p⟩
  · refine Nat.min_eq_right (not_lt.1 fun hlt => hfin ?_)
    obtain ⟨hle, htie⟩ := hnear (infMag f)
    replace htie := fun h => htie h hlt.ne'
    rw [roundingError_eq, roundingError_eq] at hle htie
    rcases (Nat.le_sub_one_of_lt hlt).eq_or_lt with hlargest | hsmaller
    · rw [hlargest] at hle htie
      omega
    · have hbelow : quanta f (roundedField f n d) * d < quanta f (infMag f - 1) * d := hmono hsmaller
      omega

/-- Both formats have a fraction field. -/
theorem fracBits_ne_zero (x : Fp) : x.format.fracBits ≠ 0 := by
  obtain h | h := format_cases x <;> rw [h] <;> decide

/-- A field other than 0 has a size. -/
theorem quanta_pos {f : FpFormat} {m : Nat} (h : m ≠ 0) : 0 < quanta f m :=
  quanta_zero f ▸ quanta_strictMono f (Nat.pos_of_ne_zero h)

/-- Settles O15: both operations give the rounding of the exact result (`fmul_finite`, `fdiv_finite`), which is to the
nearest field, ties to even. -/
theorem arithmeticIsCorrectlyRounded : Obligations.ArithmeticIsCorrectlyRounded := by
  intro x s t a b ha hb
  have hrounds {n d : Nat} (hd : 0 < d) : roundsNearestEven x.format (roundRatio x.format n d) n d :=
    roundRatio_roundsNearestEven (fracBits_ne_zero x) (Nat.zero_lt_of_lt ha) hd
  exact ⟨⟨_, fmul_finite s t ha hb, hrounds (unitQuanta_pos _)⟩,
    fun h0 => ⟨_, fdiv_finite s t ha hb h0, hrounds (quanta_pos h0)⟩⟩

/-! ### Integers and halves -/

section
variable {f : FpFormat} {m : Nat}

/-- Up to the end of the lowest normal binade a field counts smallest subnormals. -/
theorem quanta_eq_self (h : m ≤ 2 * 2 ^ f.fracBits) : quanta f m = m := by
  have hpack := quanta_pack (f := f) (sh := 0) (.inl rfl) (h.trans_eq (Nat.pow_succ' ..).symm)
  simpa using hpack

/-- A normal field has twice its size one binade up. -/
theorem quanta_add_binade (h : 2 ^ f.fracBits ≤ m) : quanta f (m + 2 ^ f.fracBits) = 2 * quanta f m := by
  obtain ⟨sh, q, rfl, hsize, hlo, hhi⟩ := quanta_cases f m
  have hfull : 2 ^ f.fracBits ≤ q := hlo.elim (by rintro rfl; simpa using h) id
  have hup : sh * 2 ^ f.fracBits + q + 2 ^ f.fracBits = (sh + 1) * 2 ^ f.fracBits + q := by ring
  rw [hup, quanta_pack (.inr hfull) hhi.le, hsize]
  ring

/-- Twice the size of a field is the size of a field. -/
theorem exists_quanta_eq_two_mul (f : FpFormat) (m : Nat) : ∃ p, quanta f p = 2 * quanta f m := by
  rcases le_total (2 ^ f.fracBits) m with h | h
  · exact ⟨_, quanta_add_binade h⟩
  · exact ⟨2 * m, by rw [quanta_eq_self (by omega), quanta_eq_self (by omega)]⟩

/-- A significand times a power of two is the size of a field. -/
theorem exists_quanta_eq_mul_pow {q : Nat} (hq : q ≤ 2 * 2 ^ f.fracBits) (k : Nat) : ∃ p, quanta f p = q * 2 ^ k := by
  induction k with
  | zero => exact ⟨q, by rw [quanta_eq_self hq, Nat.pow_zero, Nat.mul_one]⟩
  | succ k ih =>
    obtain ⟨p, hp⟩ := ih
    obtain ⟨p', hp'⟩ := exists_quanta_eq_two_mul f p
    exact ⟨p', by rw [hp', hp]; ring⟩

end

/-- `fp(n)` is finite and exact for every code (R111). -/
theorem intMag_exact (x : Fp) {n : Nat} (hn : n ≤ 4095) :
    intMag x.format n < infMag x.format ∧ quanta x.format (intMag x.format n) = n * unitQuanta x.format := by
  have hfin : intMag x.format n < infMag x.format := (intMag_mono hn).trans_lt (intMag_scale x (.inl rfl)).2.1
  have hlong : 4095 ≤ 2 * 2 ^ x.format.fracBits := by
    obtain h | h := format_cases x <;> rw [h] <;> decide
  obtain ⟨m, hm⟩ := exists_quanta_eq_mul_pow (hn.trans hlong) (quantumExp x.format)
  have hround : intMag x.format n = min m (infMag x.format) := by
    rw [← roundRatio_quanta x.format m Nat.one_pos, hm, Nat.mul_one]
    rfl
  have hmin : intMag x.format n = m := by omega
  exact ⟨hfin, hmin ▸ hm⟩

/-- Settles O16. -/
theorem integerConversionIsExact : Obligations.IntegerConversionIsExact :=
  fun x _ hn => ⟨_, rfl, intMag_exact x hn⟩

/-- The magnitude field of half a finite reference (R107). -/
def halfMag (x : Fp) : Nat :=
  roundRatio x.format (quanta x.format (fpMag x) * unitQuanta x.format) (2 * unitQuanta x.format)

section
variable {x : Fp}

/-- The effective reference of a finite reference, in sign and magnitude (R107). -/
theorem effectiveRef_finite (h : isFinite x) : effectiveRef x.format (fpVal x) = .val (fpNeg x) (halfMag x) := by
  obtain ⟨hfin, hsize⟩ := intMag_exact x (n := 2) (by decide)
  have hunit := unitQuanta_pos x.format
  have hne : intMag x.format 2 ≠ 0 := fun h0 => by
    rw [h0, quanta_zero] at hsize
    omega
  rw [halfMag, ← hsize, effectiveRef, fpVal_of_le h.le]
  exact (fdiv_finite (fpNeg x) false h hfin hne).trans (by rw [Bool.xor_false])

/-- Half a reference is no larger than the reference. -/
theorem halfMag_le (h : isFinite x) : halfMag x ≤ fpMag x :=
  roundRatio_le (Nat.mul_pos Nat.two_pos (unitQuanta_pos _)) h.le
    (Nat.mul_le_mul_left _ (Nat.le_mul_of_pos_left _ Nat.two_pos))

/-- Half a finite reference is finite (R112). -/
theorem halfMag_lt (h : isFinite x) : halfMag x < infMag x.format := (halfMag_le h).trans_lt h

/-- A field of half the size is the half. -/
theorem halfMag_eq_of_two_mul {p : Nat} (h : isFinite x) (hp : 2 * quanta x.format p = quanta x.format (fpMag x)) :
    halfMag x = p := by
  have hle : p ≤ fpMag x := (quanta_strictMono x.format).le_iff_le.1 (by omega)
  refine roundRatio_exact (Nat.mul_pos Nat.two_pos (unitQuanta_pos _)) (hle.trans h.le) ?_
  rw [← hp]
  ring

/-- Halving is exact but for an odd field below the second normal binade (R112): a field above is twice the one a binade
down, and one below is its own size. -/
theorem two_mul_quanta_halfMag_ne_iff (h : isFinite x) :
    2 * quanta x.format (halfMag x) ≠ quanta x.format (fpMag x) ↔
      fpMag x < 2 * 2 ^ x.format.fracBits ∧ fpMag x % 2 = 1 := by
  rcases lt_or_ge (fpMag x) (2 * 2 ^ x.format.fracBits) with hlow | hhigh
  · have hsize : quanta x.format (fpMag x) = fpMag x := quanta_eq_self hlow.le
    rcases Nat.mod_two_eq_zero_or_one (fpMag x) with heven | hodd
    · have hhalf : 2 * quanta x.format (fpMag x / 2) = quanta x.format (fpMag x) := by
        rw [quanta_eq_self (m := fpMag x / 2) (by omega), hsize]
        omega
      rw [halfMag_eq_of_two_mul h hhalf]
      omega
    · omega
  · have hdown : fpMag x - 2 ^ x.format.fracBits + 2 ^ x.format.fracBits = fpMag x := by omega
    have hhalf := quanta_add_binade (f := x.format) (m := fpMag x - 2 ^ x.format.fracBits) (by omega)
    rw [hdown] at hhalf
    rw [halfMag_eq_of_two_mul h hhalf.symm]
    omega

end

/-- Settles O25. -/
theorem halvingIsInexactOnlyForSmallOddReferences : Obligations.HalvingIsInexactOnlyForSmallOddReferences :=
  fun _ h => ⟨_, effectiveRef_finite h, halfMag_lt h, two_mul_quanta_halfMag_ne_iff h⟩

end Sys2Proof.Machine
end

section
/-! SUPPORT. The conversion engine (42_conversion_engine): the code of a frame, what TOVOLT leaves in the state, and
every conversion of a finite reference in sign and magnitude. -/

namespace Sys2Proof.Machine

/-! ### EXTRACT -/

/-- The code of a frame as a number (R100). -/
theorem extractCode_toNat (b0 b1 : Byte) : (extractCode b0 b1).toNat = (b0.toNat * 256 + b1.toNat) / 16 := by
  have h0 := b0.isLt
  have h1 := b1.isLt
  rw [extractCode, frameOf_eq_append, BitVec.truncate_eq_setWidth, BitVec.toNat_setWidth, BitVec.toNat_ushiftRight,
    toNat_append_eq, Nat.shiftRight_eq_div_pow]
  omega

/-- Settles O11: the mode of the sent command byte selects the port of the code. -/
theorem extractGivesTheHighTwelveBits : Obligations.ExtractGivesTheHighTwelveBits := by
  intro s b0 b1
  refine ⟨extractCode b0 b1, extractCode_toNat b0 b1, ?_⟩
  cases hm : modeOf s.cmd <;> simp [exec, execExtract, codeWord, hm, State.goto]

/-- The code takes from the second byte its high nibble only (R67, R100). -/
theorem extractCode_congr {b0 b1 b1' : Byte} (h : b1.extractLsb' 4 4 = b1'.extractLsb' 4 4) :
    extractCode b0 b1 = extractCode b0 b1' := by
  have hnibble := congrArg BitVec.toNat h
  have h1 := b1.isLt
  have h1' := b1'.isLt
  rw [BitVec.extractLsb'_toNat, BitVec.extractLsb'_toNat, Nat.shiftRight_eq_div_pow, Nat.shiftRight_eq_div_pow] at hnibble
  apply BitVec.eq_of_toNat_eq
  rw [extractCode_toNat, extractCode_toNat]
  omega

/-- Settles O12. -/
theorem extractIgnoresTheLowNibble : Obligations.ExtractIgnoresTheLowNibble := by
  intro s b0 b1 b1' h
  simp only [exec, execExtract, extractCode_congr h]

/-! ### What TOVOLT leaves -/

/-- Settles O13: the meaning of the instruction, written out. -/
theorem unipolarConversionCompletes : Obligations.UnipolarConversionCompletes :=
  fun _ _ => ⟨_, rfl, rfl⟩

/-- Settles O14: the meaning of the instruction, its intermediate values named. -/
theorem bipolarConversionCompletes : Obligations.BipolarConversionCompletes :=
  fun _ _ _ => ⟨_, _, _, _, _, rfl, rfl, rfl, rfl, rfl, rfl⟩

/-- TOVOLT in either mode keeps the converted code as the last voltage (R101, R135). -/
theorem exec_converterInstr (s : State) (mode : PolarityMode) (code : Code) :
    exec (converterInstr mode code) s =
      .next ((s.takeVolt (convertCode s.vref.format mode code (fpVal s.vref))).goto .converted) := by
  cases mode <;> rfl

/-- A magnitude field up to infinity fits below the sign bit. -/
theorem lt_magBits {x : Fp} {m : Nat} (h : m ≤ infMag x.format) : m < 2 ^ x.format.magBits := h.trans_lt (infMag_lt x)

/-- Packing takes from its first datum the format only. -/
@[simp] theorem fpPack_fpPack (x : Fp) (neg neg' : Bool) (m m' : Nat) :
    fpPack (fpPack x neg m) neg' m' = fpPack x neg' m' := by
  cases x <;> rfl

/-- A packed datum with its sign bit flipped. -/
theorem flipSign_fpPack {x : Fp} {neg : Bool} {m : Nat} (h : m ≤ infMag x.format) :
    flipSign (fpPack x neg m) = fpPack x (!neg) m := by
  rw [flipSign, fpPack_fpPack, fpNeg_fpPack (lt_magBits h), fpMag_fpPack (lt_magBits h)]

/-- The exact value of a packed datum. -/
theorem fpExact_fpPack {x : Fp} {neg : Bool} {m : Nat} (h : m ≤ infMag x.format) :
    fpExact (fpPack x neg m) = if neg then -(quanta x.format m : Int) else quanta x.format m := by
  rw [fpExact, fpNeg_fpPack (lt_magBits h), fpMag_fpPack (lt_magBits h), fpPack_format]

/-- A datum with its sign bit kept or flipped. -/
theorem fpPack_xor_fpNeg (x : Fp) (neg : Bool) :
    fpPack x (neg ^^ fpNeg x) (fpMag x) = if neg then flipSign x else x := by
  cases neg
  · rw [Bool.false_xor, fpPack_self, if_neg Bool.false_ne_true]
  · rw [Bool.true_xor, if_pos rfl, flipSign]

/-! ### A finite reference -/

/-- The magnitude field that a unipolar code gives under a finite reference (R104). -/
def unipolarMag (x : Fp) (u : Code) : Nat := scaledMag x.format 4095 (fpMag x) u.toNat

/-- The magnitude field that a bipolar magnitude gives under a finite reference (R107). -/
def bipolarMag (x : Fp) (mag : BitVec 11) : Nat := scaledMag x.format 2047 (halfMag x) mag.toNat

section
variable {x : Fp} {c m n : Nat}

/-- A code below its scale gives at most the reference (R105, R110). -/
theorem scaledMag_le (hc : c = 4095 ∨ c = 2047) (hn : n ≤ c) (hm : m ≤ infMag x.format) :
    scaledMag x.format c m n ≤ m := by
  have hone := (quanta_strictMono x.format).monotone (ratioMag_le_one x hc hn)
  rw [(quanta_one x).1] at hone
  refine roundRatio_le (unitQuanta_pos _) hm ?_
  rw [Nat.mul_comm (quanta x.format m)]
  exact Nat.mul_le_mul_right _ hone

/-- The largest code gives the reference (R105, R110). -/
theorem scaledMag_top (hc : c = 4095 ∨ c = 2047) (hm : m ≤ infMag x.format) : scaledMag x.format c m c = m := by
  rw [scaledMag, ratioMag, roundRatio_same (intMag_scale x hc).1]
  exact roundRatio_one_mul x hm

/-- A unipolar result is no larger than the reference (R105). -/
theorem unipolarMag_le (h : isFinite x) (u : Code) : unipolarMag x u ≤ fpMag x :=
  scaledMag_le (.inl rfl) (Nat.le_of_lt_succ u.isLt) h.le

theorem unipolarMag_zero : unipolarMag x 0 = 0 := scaledMag_zero (intMag_scale x (.inl rfl)).1

theorem unipolarMag_top (h : isFinite x) : unipolarMag x 4095 = fpMag x := scaledMag_top (.inl rfl) h.le

/-- A bipolar result is no larger than the effective reference (R110). -/
theorem bipolarMag_le (h : isFinite x) (mag : BitVec 11) : bipolarMag x mag ≤ halfMag x :=
  scaledMag_le (.inr rfl) (Nat.le_of_lt_succ mag.isLt) (halfMag_lt h).le

theorem bipolarMag_zero : bipolarMag x 0 = 0 := scaledMag_zero (intMag_scale x (.inr rfl)).1

theorem bipolarMag_top (h : isFinite x) : bipolarMag x 2047 = halfMag x := scaledMag_top (.inr rfl) (halfMag_lt h).le

end

/-- Whether a code makes its result negative under a positive reference (R104, R106). -/
def codeNeg (mode : PolarityMode) (code : Code) : Bool :=
  match mode with
  | .unipolar => false
  | .bipolar => bipolarNeg (code.extractLsb' 11 1) (code.extractLsb' 0 11)

/-- The magnitude field that a code gives under a finite reference (R101). -/
def codeMag (x : Fp) (mode : PolarityMode) (code : Code) : Nat :=
  match mode with
  | .unipolar => unipolarMag x code
  | .bipolar => bipolarMag x (code.extractLsb' 0 11)

section
variable {x : Fp}

/-- Every conversion of a finite reference, in sign and magnitude (R101, R104, R107). -/
theorem convertCode_finite (h : isFinite x) (mode : PolarityMode) (code : Code) :
    convertCode x.format mode code (fpVal x) = .val (codeNeg mode code ^^ fpNeg x) (codeMag x mode code) := by
  cases mode with
  | unipolar => rw [convertCode, unipolarVolt_finite x code h, codeNeg, Bool.false_xor, codeMag, unipolarMag]
  | bipolar => exact bipolarVolt_finite x _ _ (effectiveRef_finite h) (halfMag_lt h)

/-- No conversion of a finite reference exceeds it (R112). -/
theorem codeMag_le (h : isFinite x) (mode : PolarityMode) (code : Code) : codeMag x mode code ≤ fpMag x := by
  cases mode with
  | unipolar => exact unipolarMag_le h code
  | bipolar => exact (bipolarMag_le h _).trans (halfMag_le h)

end

section
variable {s : State}

/-- TOVOLT of a finite reference packs sign and magnitude, and draws no NaN. -/
theorem exec_converterInstr_finite (h : isFinite s.vref) (mode : PolarityMode) (code : Code) :
    ∃ t, exec (converterInstr mode code) s = .next t ∧
      t.last = some (fpPack s.vref (codeNeg mode code ^^ fpNeg s.vref) (codeMag s.vref mode code)) ∧
      t.draws = s.draws := by
  refine ⟨_, exec_converterInstr s mode code, ?_, ?_⟩ <;> simp [convertCode_finite h, voltDatum]

/-- TOVOLT.UNI of a finite reference (R104). -/
theorem exec_tovoltUni_finite (h : isFinite s.vref) (u : Code) :
    ∃ t, exec (.tovoltUni u) s = .next t ∧ t.last = some (fpPack s.vref (fpNeg s.vref) (unipolarMag s.vref u)) := by
  obtain ⟨t, hexec, hlast, -⟩ := exec_converterInstr_finite h .unipolar u
  rw [codeNeg, Bool.false_xor] at hlast
  exact ⟨t, hexec, hlast⟩

/-- TOVOLT.BIP of a finite reference (R107). -/
theorem exec_tovoltBip_finite (h : isFinite s.vref) (sgn : BitVec 1) (mag : BitVec 11) :
    ∃ t, exec (.tovoltBip sgn mag) s = .next t ∧
      t.last = some (fpPack s.vref (bipolarNeg sgn mag ^^ fpNeg s.vref) (bipolarMag s.vref mag)) := by
  obtain ⟨t, hexec, hlast, -⟩ := exec_converterInstr_finite h .bipolar (sgn ++ mag)
  rw [converterInstr, decodeBipolar, code_sign, code_mag] at hexec
  rw [codeNeg, codeMag, code_sign, code_mag] at hlast
  exact ⟨t, hexec, hlast⟩

end

end Sys2Proof.Machine
end

section
/-! SUPPORT. The results of TOVOLT by the class of the reference (42_conversion_engine rules R105, R108 to R110, R112,
R113, R116): finite, zero, infinite and NaN. -/

namespace Sys2Proof.Machine

/-! ### The sign of a bipolar code -/

/-- A code is negative where its sign bit is set and its magnitude is not 0 (R106). -/
theorem bipolarNeg_iff {sgn : BitVec 1} {mag : BitVec 11} : bipolarNeg sgn mag = true ↔ sgn = 1 ∧ mag ≠ 0 :=
  decide_eq_true_iff

/-- A code with a clear sign bit is positive (R106). -/
theorem bipolarNeg_plus (mag : BitVec 11) : bipolarNeg 0 mag = false := decide_eq_false (by simp)

/-- Magnitude 0 is positive under both sign bits (R109). -/
theorem bipolarNeg_zero (sgn : BitVec 1) : bipolarNeg sgn 0 = false := decide_eq_false (by simp)

/-! ### The range of the results -/

/-- Settles O26: no conversion of a finite reference exceeds it. -/
theorem finiteReferenceGivesFiniteVoltage : Obligations.FiniteReferenceGivesFiniteVoltage := by
  intro s mode code h
  obtain ⟨t, hexec, hlast, hdraws⟩ := exec_converterInstr_finite h mode code
  have hle := codeMag_le h mode code
  have hmag := fpMag_fpPack (neg := codeNeg mode code ^^ fpNeg s.vref) (lt_magBits (hle.trans h.le))
  refine ⟨t, _, hexec, hlast, fpPack_format _ _ _, ?_, hmag.trans_le hle, hdraws⟩
  rw [isFinite, hmag, fpPack_format]
  exact hle.trans_lt h

/-- Settles O17: code 0 scales to 0, the largest code to the whole. -/
theorem unipolarEndpoints : Obligations.UnipolarEndpoints := by
  intro s h
  have hbottom := exec_tovoltUni_finite h 0
  have htop := exec_tovoltUni_finite h 4095
  rw [unipolarMag_zero] at hbottom
  rw [unipolarMag_top h, fpPack_self] at htop
  exact ⟨hbottom, htop⟩

/-- Settles O22: the largest magnitude scales to the whole effective reference. -/
theorem bipolarEndpoints : Obligations.BipolarEndpoints := by
  intro s h
  have hplus := exec_tovoltBip_finite h 0 2047
  have hminus := exec_tovoltBip_finite h 1 2047
  rw [bipolarMag_top h, bipolarNeg_plus, Bool.false_xor] at hplus
  rw [bipolarMag_top h, bipolarNeg_iff.2 (by decide), Bool.true_xor] at hminus
  exact ⟨halfMag s.vref, effectiveRef_finite h, halfMag_lt h, hplus, hminus⟩

section
variable {s : State}

/-- TOVOLT.UNI of a positive finite reference: the exact value of its result. -/
theorem exec_tovoltUni_positive (hx : isPositiveFinite s.vref) (u : Code) :
    ∃ t v, exec (.tovoltUni u) s = .next t ∧ t.last = some v ∧ v.format = s.vref.format ∧ fpNeg v = false ∧
      fpMag v = unipolarMag s.vref u ∧ fpExact v = quanta s.vref.format (unipolarMag s.vref u) := by
  obtain ⟨hpos, -, h⟩ := hx
  obtain ⟨t, hexec, hlast⟩ := exec_tovoltUni_finite h u
  have hinf := (unipolarMag_le h u).trans h.le
  rw [hpos] at hlast
  exact ⟨t, _, hexec, hlast, fpPack_format _ _ _, fpNeg_fpPack (lt_magBits hinf), fpMag_fpPack (lt_magBits hinf),
    fpExact_fpPack hinf⟩

/-- TOVOLT.BIP of a positive finite reference: the exact value of its result has the sign of the sign bit, which for
magnitude 0 does not matter (R109). -/
theorem exec_tovoltBip_positive (hx : isPositiveFinite s.vref) (sgn : BitVec 1) (mag : BitVec 11) :
    ∃ t v, exec (.tovoltBip sgn mag) s = .next t ∧ t.last = some v ∧ v.format = s.vref.format ∧
      fpMag v = bipolarMag s.vref mag ∧
      fpExact v = if sgn = 0 then (quanta s.vref.format (bipolarMag s.vref mag) : Int)
        else -quanta s.vref.format (bipolarMag s.vref mag) := by
  obtain ⟨hpos, -, h⟩ := hx
  obtain ⟨t, hexec, hlast⟩ := exec_tovoltBip_finite h sgn mag
  have hinf := (bipolarMag_le h mag).trans (halfMag_lt h).le
  rw [hpos, Bool.xor_false] at hlast
  refine ⟨t, _, hexec, hlast, fpPack_format _ _ _, fpMag_fpPack (lt_magBits hinf), (fpExact_fpPack hinf).trans ?_⟩
  obtain rfl | rfl := BitVec.eq_zero_or_eq_one sgn
  · exact if_neg (Bool.eq_false_iff.1 (bipolarNeg_plus mag))
  · by_cases hm : mag = 0
    · rw [hm, bipolarMag_zero, quanta_zero, Nat.cast_zero, neg_zero, ite_self, ite_self]
    · exact (if_pos (bipolarNeg_iff.2 ⟨rfl, hm⟩)).trans (if_neg (by decide)).symm

end

/-- Settles O18: the result's magnitude field is at most that of the reference, and sizes are ordered as fields are. -/
theorem unipolarRangeIsClosed : Obligations.UnipolarRangeIsClosed := by
  intro s u hx
  obtain ⟨t, v, hexec, hlast, hformat, hneg, hmag, hexact⟩ := exec_tovoltUni_positive hx u
  obtain ⟨hpos, -, h⟩ := hx
  have hle := unipolarMag_le h u
  refine ⟨t, v, hexec, hlast, hformat, hneg, hmag.trans_le hle, ?_⟩
  rw [hexact, fpExact, hpos]
  exact Int.ofNat_le.2 ((quanta_strictMono _).monotone hle)

/-- Settles O23: the result's magnitude field is at most that of the effective reference. -/
theorem bipolarRangeIsClosed : Obligations.BipolarRangeIsClosed := by
  intro s sgn mag hx
  obtain ⟨t, v, hexec, hlast, hformat, hmag, hexact⟩ := exec_tovoltBip_positive hx sgn mag
  obtain ⟨hpos, -, h⟩ := hx
  have hle := bipolarMag_le h mag
  have hsize := (quanta_strictMono s.vref.format).monotone hle
  refine ⟨halfMag s.vref, t, v, hpos ▸ effectiveRef_finite h, hexec, hlast, hformat, hmag.trans_le hle, ?_⟩
  rw [hexact]
  split_ifs <;> omega

/-! ### Monotonicity -/

section
variable {x : Fp}

/-- The magnitude of a unipolar result does not decrease with the code, and at VREF it increases (R116). -/
theorem unipolarMag_mono {u u' : Code} (hx : isPositiveFinite x) (hu : u.toNat ≤ u'.toNat) :
    unipolarMag x u ≤ unipolarMag x u' ∧
      (x = vrefLike x → u.toNat < u'.toNat → unipolarMag x u < unipolarMag x u') := by
  have hmono := unipolarVolt_mono x u u' hx hu
  obtain ⟨hpos, -, h⟩ := hx
  simpa [unipolarVolt_finite _ _ h, hpos, unipolarMag] using hmono

/-- The magnitude of a bipolar result does not decrease with that of the code, and at VREF it increases (R116). -/
theorem bipolarMag_mono {mag mag' : BitVec 11} (hx : isPositiveFinite x) (hm : mag.toNat ≤ mag'.toNat) :
    bipolarMag x mag ≤ bipolarMag x mag' ∧
      (x = vrefLike x → mag.toNat < mag'.toNat → bipolarMag x mag < bipolarMag x mag') := by
  obtain ⟨hpos, -, h⟩ := hx
  have he := effectiveRef_finite h
  rw [hpos] at he
  have hmono := bipolarVolt_mono x 0 mag mag' he (halfMag_lt h) hm
  simpa [bipolarVolt_finite _ _ _ he (halfMag_lt h), bipolarMag] using hmono

end

/-- Settles O19: sizes are ordered as magnitude fields are. -/
theorem unipolarIsMonotone : Obligations.UnipolarIsMonotone := by
  intro s u u' hx hu
  obtain ⟨t, v, hexec, hlast, -, -, -, hexact⟩ := exec_tovoltUni_positive hx u
  obtain ⟨t', v', hexec', hlast', -, -, -, hexact'⟩ := exec_tovoltUni_positive hx u'
  obtain ⟨hle, hlt⟩ := unipolarMag_mono hx hu
  have hsize := quanta_strictMono s.vref.format
  refine ⟨t, t', v, v', hexec, hexec', hlast, hlast', ?_⟩
  rw [hexact, hexact', Int.ofNat_le, Int.ofNat_lt]
  exact ⟨hsize.monotone hle, fun hv hu => hsize (hlt hv hu)⟩

/-- Settles O24: the magnitudes are ordered as those of the codes, and the sign bit turns the order round. -/
theorem bipolarIsMonotoneInMagnitude : Obligations.BipolarIsMonotoneInMagnitude := by
  intro s sgn mag mag' hx hm
  obtain ⟨t, v, hexec, hlast, -, -, hexact⟩ := exec_tovoltBip_positive hx sgn mag
  obtain ⟨t', v', hexec', hlast', -, -, hexact'⟩ := exec_tovoltBip_positive hx sgn mag'
  obtain ⟨hle, hlt⟩ := bipolarMag_mono hx hm
  have hsize := quanta_strictMono s.vref.format
  refine ⟨t, t', v, v', hexec, hexec', hlast, hlast', ?_, fun hv => ⟨?_, fun hmag => ?_⟩⟩
  · have hsizes := hsize.monotone hle
    rw [hexact, hexact']
    split_ifs <;> omega
  · rintro rfl
    rw [hexact, bipolarMag_zero, quanta_zero, Nat.cast_zero, neg_zero, ite_self]
  · have hsizes := hsize (hlt hv hmag)
    rw [hexact, hexact']
    split_ifs <;> omega

/-! ### Signs and zeros -/

/-- Settles O20: the two codes differ in the sign of the result and in nothing else. -/
theorem bipolarIsOddInTheSignBit : Obligations.BipolarIsOddInTheSignBit := by
  intro s mag h hm
  obtain ⟨t, hexec, hlast⟩ := exec_tovoltBip_finite h 0 mag
  obtain ⟨t', hexec', hlast'⟩ := exec_tovoltBip_finite h 1 mag
  have hinf := (bipolarMag_le h mag).trans (halfMag_lt h).le
  rw [bipolarNeg_plus, Bool.false_xor] at hlast
  rw [bipolarNeg_iff.2 ⟨rfl, hm⟩, Bool.true_xor, ← flipSign_fpPack hinf] at hlast'
  refine ⟨t, t', _, hexec, hexec', hlast, hlast', fun heq => ?_⟩
  have hsign := congrArg fpNeg heq
  rw [flipSign_fpPack hinf, fpNeg_fpPack (lt_magBits hinf), fpNeg_fpPack (lt_magBits hinf)] at hsign
  exact Bool.not_ne_self _ hsign.symm

/-- A positive zero has all bits zero. -/
theorem fpPack_false_zero_pattern (x : Fp) : (fpPack x false 0).pattern = 0 := by
  cases x <;> rfl

/-- Settles O21: a magnitude of 0 is positive, whatever the sign bit. -/
theorem zeroMagnitudeIsPositiveZero : Obligations.ZeroMagnitudeIsPositiveZero := by
  intro s
  refine ⟨by simp only [exec, execTovoltBip, bipolarVolt, bipolarNeg_zero], ?_⟩
  rintro ⟨hpos, -, h⟩
  obtain ⟨t, hexec, hlast⟩ := exec_tovoltBip_finite h 1 0
  rw [bipolarNeg_zero, hpos, Bool.xor_false, bipolarMag_zero] at hlast
  exact ⟨t, _, hexec, hlast, fpPack_format _ _ _, fpPack_false_zero_pattern _⟩

/-- Settles O27: no result exceeds the reference, so each is a zero, with the sign of the product. -/
theorem zeroReferenceGivesZeros : Obligations.ZeroReferenceGivesZeros := by
  intro s hzero
  have h : isFinite s.vref := hzero.trans_lt (Nat.zero_lt_of_lt (quanta_one s.vref).2)
  constructor
  · intro u
    have huni : unipolarMag s.vref u = fpMag s.vref := by
      have hle := unipolarMag_le h u
      omega
    have hexec := exec_tovoltUni_finite h u
    rwa [huni, fpPack_self] at hexec
  · intro sgn mag
    have hbip : bipolarMag s.vref mag = fpMag s.vref := by
      have hle := (bipolarMag_le h mag).trans (halfMag_le h)
      omega
    have hexec := exec_tovoltBip_finite h sgn mag
    simpa only [hbip, fpPack_xor_fpNeg, bipolarNeg_iff] using hexec

/-- The magnitude of a result depends on that of the reference and not on its sign. -/
theorem codeMag_congr {x y : Fp} (hformat : y.format = x.format) (hmag : fpMag y = fpMag x) (mode : PolarityMode)
    (code : Code) : codeMag y mode code = codeMag x mode code := by
  cases mode with
  | unipolar => rw [codeMag, codeMag, unipolarMag, unipolarMag, hformat, hmag]
  | bipolar => rw [codeMag, codeMag, bipolarMag, bipolarMag, halfMag, halfMag, hformat, hmag]

/-- Settles O30: neither the sign of the code nor the magnitude of the result depends on the sign of the reference. -/
theorem negatedReferenceNegatesTheVoltage : Obligations.NegatedReferenceNegatesTheVoltage := by
  intro s mode code h
  have hformat : (flipSign s.vref).format = s.vref.format := fpPack_format _ _ _
  have hmag : fpMag (flipSign s.vref) = fpMag s.vref := fpMag_fpPack (fpMag_lt s.vref)
  have hneg : fpNeg (flipSign s.vref) = !fpNeg s.vref := fpNeg_fpPack (fpMag_lt s.vref)
  have h' : isFinite (flipSign s.vref) := by rwa [isFinite, hmag, hformat]
  obtain ⟨t, hexec, hlast, -⟩ := exec_converterInstr_finite h mode code
  obtain ⟨t', hexec', hlast', -⟩ := exec_converterInstr_finite (s := { s with vref := flipSign s.vref }) h' mode code
  refine ⟨t, t', _, hexec, hexec', hlast, hlast'.trans (congrArg some ?_)⟩
  rw [flipSign_fpPack ((codeMag_le h mode code).trans h.le), codeMag_congr hformat hmag, hneg, flipSign, fpPack_fpPack,
    Bool.xor_not]

/-! ### Infinite and NaN references -/

section
variable {f : FpFormat} {a : Nat}

/-- A finite value times an infinity is an infinity, and 0 times an infinity a NaN (R113). -/
theorem fmul_infMag (s t : Bool) (ha : a < infMag f) :
    fmul f (.val s a) (.val t (infMag f)) = if a = 0 then .nan else .val (s ^^ t) (infMag f) := by
  have hinf : infMag f ≠ 0 := by omega
  simp only [fmul, ha.ne, hinf, false_and, and_true, false_or, or_true, if_true]

/-- An infinity over a finite value is an infinity (R113). -/
theorem infMag_fdiv (s t : Bool) (ha : a < infMag f) :
    fdiv f (.val s (infMag f)) (.val t a) = .val (s ^^ t) (infMag f) := by
  have hinf : infMag f ≠ 0 := by omega
  simp only [fdiv, ha.ne, hinf, and_false, false_and, or_false, true_or, if_false, if_true]

/-- A product with a NaN is a NaN (R113). -/
@[simp] theorem fmul_nan (v : FpVal) : fmul f v .nan = .nan := by
  cases v <;> rfl

end

section
variable {x : Fp} {c n : Nat}

/-- A code over its scale is 0 for code 0 only. -/
theorem ratioMag_eq_zero_iff (hc : c = 4095 ∨ c = 2047) : ratioMag x.format c n = 0 ↔ n = 0 := by
  have hscale := (intMag_scale x hc).1
  constructor
  · intro h
    have hone : 0 < ratioMag x.format c 1 := by
      obtain hf | hf := format_cases x <;> rcases hc with rfl | rfl <;> rw [hf] <;> decide +kernel
    by_contra hn
    have hle := ratioMag_mono (n := 1) hscale (Nat.one_le_iff_ne_zero.2 hn)
    omega
  · rintro rfl
    have hzero : intMag x.format 0 = 0 := roundRatio_exact Nat.one_pos (Nat.zero_le _) (by simp)
    exact roundRatio_exact hscale (Nat.zero_le _) (by simp [hzero])

/-- TOVOLT.UNI of an infinite reference (R113). -/
theorem unipolarVolt_infinite (h : fpMag x = infMag x.format) (u : Code) :
    unipolarVolt x.format u (fpVal x) = if u = 0 then .nan else .val (fpNeg x) (infMag x.format) := by
  have hu : u.toNat ≤ 4095 := Nat.le_of_lt_succ u.isLt
  have hfin := (ratioMag_le_one x (.inl rfl) hu).trans_lt (quanta_one x).2
  have hzero : u.toNat = 0 ↔ u = 0 := BitVec.toNat_inj (y := 0#12)
  rw [unipolarVolt, fdiv_fpOfNat x (.inl rfl) hu, fpVal_of_le h.le, h, fmul_infMag _ _ hfin, Bool.false_xor]
  simp only [ratioMag_eq_zero_iff (.inl rfl), hzero]

/-- TOVOLT.BIP of an infinite reference (R113). -/
theorem bipolarVolt_infinite (h : fpMag x = infMag x.format) (sgn : BitVec 1) (mag : BitVec 11) :
    bipolarVolt x.format sgn mag (fpVal x) =
      if mag = 0 then .nan else .val (bipolarNeg sgn mag ^^ fpNeg x) (infMag x.format) := by
  have hm : mag.toNat ≤ 2047 := Nat.le_of_lt_succ mag.isLt
  have hfin := (ratioMag_le_one x (.inr rfl) hm).trans_lt (quanta_one x).2
  have hzero : mag.toNat = 0 ↔ mag = 0 := BitVec.toNat_inj (y := 0#11)
  have heff : effectiveRef x.format (fpVal x) = .val (fpNeg x) (infMag x.format) := by
    rw [effectiveRef, fpVal_of_le h.le, h]
    exact (infMag_fdiv _ false (intMag_exact x (by decide)).1).trans (by rw [Bool.xor_false])
  rw [bipolarVolt, fdiv_fpOfNat x (.inr rfl) hm, signUnit_eq, fmul_finite _ _ (quanta_one x).2 hfin,
    roundRatio_one_mul x hfin.le, heff, fmul_infMag _ _ hfin, Bool.xor_false]
  simp only [ratioMag_eq_zero_iff (.inr rfl), hzero]

end

/-- Settles O28: 0 times an infinity is a NaN, any other code times it an infinity. -/
theorem infiniteReferenceGivesInfinitiesAndNaNs : Obligations.InfiniteReferenceGivesInfinitiesAndNaNs := by
  intro s h
  constructor
  · intro u
    refine ⟨_, _, rfl, rfl, ?_⟩
    rw [unipolarVolt_infinite h]
    split_ifs with hu
    · exact (quietNan_isQuietNan _ _).1
    · rw [voltDatum, ← h, fpPack_self]
  · intro sgn mag
    refine ⟨_, _, rfl, rfl, ?_⟩
    rw [bipolarVolt_infinite h]
    split_ifs with hm hs
    · exact (quietNan_isQuietNan _ _).1
    · rw [voltDatum, ← h, fpPack_xor_fpNeg, if_pos (bipolarNeg_iff.2 ⟨hs, hm⟩)]
    · rw [voltDatum, ← h, fpPack_xor_fpNeg, if_neg fun hneg => hs (bipolarNeg_iff.1 hneg).1]

/-- A conversion of a NaN is a NaN (R113). -/
theorem convertCode_nan (f : FpFormat) (mode : PolarityMode) (code : Code) : convertCode f mode code .nan = .nan := by
  cases mode with
  | unipolar => exact fmul_nan _
  | bipolar => exact fmul_nan _

/-- Settles O29: a NaN goes through every operation, and is drawn as a quiet one. -/
theorem nanReferenceGivesQuietNaNs : Obligations.NanReferenceGivesQuietNaNs := by
  intro s mode code h
  have hnan : convertCode s.vref.format mode code (fpVal s.vref) = .nan := by rw [fpVal_of_nan h, convertCode_nan]
  obtain ⟨hquiet, hformat⟩ := quietNan_isQuietNan s.vref (Config.freeNan s.draws)
  refine ⟨_, _, exec_converterInstr s mode code, rfl, ?_⟩
  rw [hnan]
  exact ⟨hformat, hquiet, rfl⟩

end Sys2Proof.Machine
end

section
/-! SUPPORT. The sampling session (43_sampling_session): each transition is the step where its call is answered, and the
statements about single steps. -/

namespace Sys2Proof.Machine

/-! ### A transition whose call is answered is the step -/

section
variable {s t : State} {p : Point}

/-- The converse of `step_transition`: where the oracle has an answer to the call of the control location, or none is made,
a transition is what the step does. The control location is made explicit so that the premise computes. -/
theorem Transition.step_eq (h : Transition s t) (hp : s.point = p) (ha : oracleAnswers (s.goto p)) :
    step s = .next t := by
  subst hp
  cases h with
  | unanswered hc ho => exact absurd ha ho
  | opened hp hh ho | openFailed hp hh ho => simp only [step, hp, stepOpen, if_pos hh, callOpen_answered ho]
  | bound hp hh ho | bindFailed hp hh ho => simp only [step, hp, stepBind, if_pos hh, callBind_answered ho]
  | nextChannel hp hi => simp only [step, hp, stepLoopHead, if_pos hi]
  | sweepDone hp hi => simp only [step, hp, stepLoopHead, if_neg hi]
  | sampleEntered hp hh => simp only [step, hp, stepSampleEntry, if_pos hh]
  | commandDriven hp hd => simp only [step, hp, runWord, decode, hd, exec_of_decodeCommand hd]
  | codeExtracted hp | unipolarConverted hp | bipolarConverted hp => simp only [step, hp]; rfl
  | sent hp hh hd ho ha => simp only [step, hp, stepSend, if_pos hh, hd, memWrite_answered ho, if_pos ha]
  | sendFailed hp hh hd ho ha => simp only [step, hp, stepSend, if_pos hh, hd, memWrite_answered ho, if_neg ha]
  | received hp hk hh ho ha | recvFailed hp hk hh ho ha =>
    simp only [step, hp, stepReadLoop, if_pos hk, recvFrame, if_pos hh, memRead_answered ho, ha]
  | readsDone hp hk hl => simp only [step, hp, stepReadLoop, if_neg hk, hl]
  | readCounted hp => simp only [step, hp, stepConverted]
  | sampleFailed hp => simp only [step, hp, stepReturned]
  | reported hp hc | directRests hp hc => simp only [step, hp, stepReturned, hc]
  | closed hp hh => simp only [step, hp, stepClose, if_neg hh]
  | released hp hh => simp only [step, hp, stepRelease, if_neg hh]
  | stays hp => obtain hp | hp := hp <;> simp only [step, hp, stepEnded]

/-- Where CLOSE is next and the handle held, the step ends the run (R134, R140). -/
theorem step_closing (hh : s.handle ≠ .closed) (failure : Option ErrorKind) :
    step (s.goto (.closing failure)) = .next (s.close.finish (finalStatus failure)) :=
  (Transition.closed (s := s.goto _) rfl hh).step_eq rfl trivial

/-- A call that is not pending is issued and answered in one step: it goes on the trace, and the answers to come are
left. -/
theorem State.issue_answered (hn : s.pending = none) (c : BusCall) (o : Oracle) :
    (s.issue c).answered o = { s with trace := s.trace ++ [c], oracle := o } := by
  cases s
  simp_all [State.issue, State.answered]

end

/-! ### The bus steps, one by one -/

/-- A count of at least 1 is a success (R44). -/
theorem writeSucceeded_accepted_succ (n : Nat) : writeSucceeded (.accepted (n + 1)) = true :=
  decide_eq_true (Nat.le_add_left 1 n)

/-- Settles O35. -/
theorem openOutcomes : Obligations.OpenOutcomes := by
  intro s a rest hp hh hn ho
  cases a with
  | handle =>
    refine ⟨_, (Transition.opened hp hh ho).step_eq hp (ho.trans_ne nofun), ?_⟩
    simp [hn]
  | error =>
    refine ⟨_, (Transition.openFailed hp hh ho).step_eq hp (ho.trans_ne nofun), ?_⟩
    simp [hn, hh]

/-- Settles O36: after the failing answer the step is CLOSE. -/
theorem bindOutcomes : Obligations.BindOutcomes := by
  intro s a rest hp hh hn ho
  cases a with
  | done =>
    refine ⟨_, (Transition.bound hp hh ho).step_eq hp (ho.trans_ne nofun), ?_⟩
    simp [hn, Config.peer]
  | error =>
    refine ⟨_, (Transition.bindFailed hp hh ho).step_eq hp (ho.trans_ne nofun), ?_, rfl, rfl, rfl, rfl, hh, _,
      step_closing (by simp [hh]) _, rfl, rfl, rfl⟩
    simp [hn, Config.peer]

/-- Settles O37: a count above 0 is a success, and the other two answers fail alike. -/
theorem sendOutcomes : Obligations.SendOutcomes := by
  intro s a rest i hp hh hd hpending ho
  have htrace : (s.issue (.send [s.cmd])).trace = if s.pending = none then s.trace ++ [.send [s.cmd]] else s.trace := by
    obtain hn | hn := hpending <;> simp [hn]
  have hfail (ha : ¬ writeSucceeded a = true) := (Transition.sendFailed hp hh hd ho ha).step_eq hp (ho.trans_ne nofun)
  match a, hfail with
  | .accepted 0, hfail => exact ⟨_, hfail nofun, htrace, rfl, rfl, rfl, rfl, rfl, hh, rfl, rfl, rfl⟩
  | .error, hfail => exact ⟨_, hfail nofun, htrace, rfl, rfl, rfl, rfl, rfl, hh, rfl, rfl, rfl⟩
  | .accepted (n + 1), _ =>
    exact ⟨_, (Transition.sent hp hh hd ho (writeSucceeded_accepted_succ n)).step_eq hp (ho.trans_ne nofun), htrace,
      rfl, rfl, rfl, rfl, rfl, hh, rfl, rfl, rfl⟩

/-- Settles O38: the answer of exactly two bytes goes on as a frame, and every other answer fails alike. -/
theorem recvOutcomes : Obligations.RecvOutcomes := by
  intro s a rest hp hk hh hn ho
  have htrace : (s.issue (.recv 2)).trace = s.trace ++ [.recv 2] := by simp [hn]
  have hfail (ha : readBytes a = none) := (Transition.recvFailed hp hk hh ho ha).step_eq hp fun _ => ho.trans_ne nofun
  match a, hfail with
  | .received [b0, b1], _ =>
    refine ⟨_, (Transition.received hp hk hh ho rfl).step_eq hp fun _ => ho.trans_ne nofun, htrace, rfl, rfl, rfl, rfl,
      rfl, rfl, hh, ?_, rfl⟩
    rw [State.goto_point, frameOf_eq_append]
  | .received [], hfail | .received [_], hfail | .received (_ :: _ :: _ :: _), hfail | .error, hfail =>
    exact ⟨_, hfail rfl, htrace, rfl, rfl, rfl, rfl, rfl, rfl, hh, rfl⟩

/-- Settles O39. -/
theorem closeEndsTheRun : Obligations.CloseEndsTheRun := by
  intro s failure hp hh
  refine ⟨_, (Transition.closed hp hh).step_eq hp trivial, rfl, rfl, rfl, ?_, rfl, rfl, rfl, rfl⟩
  cases failure <;> rfl

/-- Settles O41. -/
theorem busPreconditionsAreRefused : Obligations.BusPreconditionsAreRefused := by
  intro s
  refine ⟨fun hp hh => ?_, fun hp hh => ?_, fun failure hp hh => ?_, fun hp hh => ?_⟩
  · simp only [step, hp, stepOpen, if_neg hh]
  · simp only [step, hp, stepBind, if_neg hh]
  · simp only [step, hp, stepClose, if_pos hh]
  · simp only [step, hp, stepRelease, if_pos hh]

/-! ### The lines of SAMPLE and of SWEEP, one by one -/

/-- VREF written out in both formats (R11). -/
theorem vrefLike_eq_match (x : Fp) :
    vrefLike x = match x with | .b32 _ => .b32 0x4083126F | .b64 _ => .b64 0x4010624DD2F1A9FC := by
  cases x <;> rfl

/-- Settles O42. -/
theorem sampleEntryDrivesTheCommandWord : Obligations.SampleEntryDrivesTheCommandWord := by
  intro s hp hh
  rw [(Transition.sampleEntered hp hh).step_eq hp trivial, State.driveVref, vrefLike_eq_match]
  rfl

/-- Settles O43. -/
theorem readLoopCountsDown : Obligations.ReadLoopCountsDown := by
  intro s
  refine ⟨fun hp => (Transition.readCounted hp).step_eq hp trivial, fun v hp hk hl => ?_, fun hp hk hl => ?_⟩
  · have hk : ¬ 0 < s.k := by omega
    exact (Transition.readsDone hp hk hl).step_eq hp fun h => absurd h hk
  · simp only [step, hp, stepReadLoop, hk, Nat.lt_irrefl, if_false, hl]

/-- Settles O44. -/
theorem sweepLoopOutcomes : Obligations.SweepLoopOutcomes := fun _ =>
  ⟨fun hp hi => (Transition.nextChannel hp hi).step_eq hp trivial,
    fun hp hi => (Transition.sweepDone hp (not_le.2 hi)).step_eq hp trivial,
    fun _ hp hc => (Transition.reported hp hc).step_eq hp trivial,
    fun _ hp => (Transition.sampleFailed hp).step_eq hp trivial⟩

/-- Settles O59: a failure's code is one more than a free value, so it is not 0. -/
theorem exitCodeIsZeroOnSuccessOnly : Obligations.ExitCodeIsZeroOnSuccessOnly := by
  intro s
  cases hs : s.status with
  | running => simp [exitCode, hs]
  | done => simp [exitCode, hs]
  | failed kind => simp [exitCode, hs]

end Sys2Proof.Machine
end

section
/-! SUPPORT. The sampling session as a whole (43_sampling_session): the variant of its loops, its end, its reports, and the
outside's direct calls. -/

namespace Sys2Proof.Machine

section
variable {s t : State} {p : Point}

/-! ### The variant of the loops -/

/-- Whether the call is answered, with the control location made explicit so that it computes. -/
theorem oracleAnswers_at (hp : s.point = p) (ha : oracleAnswers s) : oracleAnswers (s.goto p) := by
  subst hp
  exact ha

/-- CLOSE is reached with the handle held (R134). -/
theorem sequenceInv.handle_held {failure : Option ErrorKind} (hs : sequenceInv s) (hp : s.point = .closing failure) :
    s.handle ≠ .closed := by
  have hpoint := hs.pointOk_at hp
  cases failure with
  | none => exact hpoint.left
  | some kind => exact hpoint.left

/-- From a state of the invariant whose call is answered there is a step: the invariant gives each line of the pseudocode
the handle it needs, SEND a command byte, and SAMPLE's return a voltage (R172). -/
theorem sequenceInv.exists_step (hs : sequenceInv s) (ha : oracleAnswers s) : ∃ t, step s = .next t := by
  have hdecode (w : Byte) (hw : w = encodeCommand s.params s.call.chan s.call.mode) :
      ∃ i, decodeCommand s.params.chsel w = .ok i := by
    obtain ⟨hlegal, -⟩ := hs.records
    rw [hw]
    exact exists_decodeCommand_encodeCommand hlegal _ _
  suffices ∃ t, Transition s t from this.imp fun t ht => ht.step_eq rfl ha
  cases hp : s.point with
  | openBus =>
    obtain ⟨hh, -⟩ := hs.pointOk_at hp
    obtain ⟨_ | _, rest, ho⟩ := List.exists_cons_of_ne_nil (oracleAnswers_at hp ha)
    · exact ⟨_, .opened hp hh ho⟩
    · exact ⟨_, .openFailed hp hh ho⟩
  | bindPeer =>
    obtain ⟨hh, -⟩ := hs.pointOk_at hp
    obtain ⟨_ | _, rest, ho⟩ := List.exists_cons_of_ne_nil (oracleAnswers_at hp ha)
    · exact ⟨_, .bound hp hh ho⟩
    · exact ⟨_, .bindFailed hp hh ho⟩
  | loopHead =>
    by_cases hi : s.i ≤ 7
    · exact ⟨_, .nextChannel hp hi⟩
    · exact ⟨_, .sweepDone hp hi⟩
  | sampleEntry =>
    obtain ⟨hh, -⟩ := hs.pointOk_at hp
    exact ⟨_, .sampleEntered hp hh⟩
  | word w =>
    cases w with
    | cmd8 w =>
      obtain ⟨-, hw⟩ := hs.pointOk_at hp
      obtain ⟨i, hd⟩ := hdecode w hw
      exact ⟨_, .commandDriven hp hd⟩
    | frame16 w => exact ⟨_, .codeExtracted hp⟩
    | code12u w => exact ⟨_, .unipolarConverted hp⟩
    | code12b w => exact ⟨_, .bipolarConverted hp⟩
  | sending =>
    obtain ⟨⟨hh, -⟩, hcmd⟩ := hs.pointOk_at hp
    obtain ⟨i, hd⟩ := hdecode s.cmd hcmd
    obtain ⟨a, rest, ho⟩ := List.exists_cons_of_ne_nil (oracleAnswers_at hp ha)
    by_cases hw : writeSucceeded a = true
    · exact ⟨_, .sent hp hh hd ho hw⟩
    · exact ⟨_, .sendFailed hp hh hd ho hw⟩
  | readLoop =>
    obtain ⟨⟨⟨hh, -⟩, -⟩, hlast⟩ := hs.pointOk_at hp
    by_cases hk : 0 < s.k
    · obtain ⟨a, rest, ho⟩ := List.exists_cons_of_ne_nil (oracleAnswers_at hp ha hk)
      cases hr : readBytes a with
      | some bytes => exact ⟨_, .received hp hk hh ho hr⟩
      | none => exact ⟨_, .recvFailed hp hk hh ho hr⟩
    · obtain ⟨v, hl⟩ := Option.ne_none_iff_exists'.1 (hlast (Nat.eq_zero_of_not_pos hk))
      exact ⟨_, .readsDone hp hk hl⟩
  | converted => exact ⟨_, .readCounted hp⟩
  | returned r =>
    cases r with
    | err kind => exact ⟨_, .sampleFailed hp⟩
    | ok v =>
      cases hc : s.call.caller with
      | sweep => exact ⟨_, .reported hp hc⟩
      | direct => exact ⟨_, .directRests hp hc⟩
  | closing failure => exact ⟨_, .closed hp (hs.handle_held hp)⟩
  | releasing =>
    obtain ⟨hh, -⟩ := hs.pointOk_at hp
    exact ⟨_, .released hp hh⟩
  | released => exact ⟨_, .stays (.inl hp)⟩
  | ended => exact ⟨_, .stays (.inr hp)⟩

/-- The variant at a control location made explicit, so that it computes. -/
theorem stepsLeft_at (hp : s.point = p) : stepsLeft s = stepsLeft (s.goto p) := by
  subst hp
  rfl

/-- The variant where a code is on the converter's port: the same in both modes. -/
theorem stepsLeft_codeWord (mode : PolarityMode) (code : Code) :
    stepsLeft (s.goto (.word (codeWord mode code))) = 10 * (7 - s.i) + 3 + 4 * s.k := by
  cases mode <;> rfl

/-- Every transition whose call is answered lowers the variant, unless the sequence is over (R141): `i` counts up to 8 at
the sweep's loop, `k` down to 0 at SAMPLE's, and between them the pseudocode goes forward. -/
theorem Transition.stepsLeft_lt (h : Transition s t) (hs : sequenceInv s) (hover : ¬ isOver s) (ha : oracleAnswers s) :
    stepsLeft t < stepsLeft s := by
  cases h with
  | unanswered hc ho => exact absurd ha ho
  | opened hp | openFailed hp | bound hp | bindFailed hp | sampleEntered hp | commandDriven hp
  | sent hp | received hp | recvFailed hp | sampleFailed hp | sweepDone hp | closed hp | released hp =>
    rw [stepsLeft_at hp]
    simp [stepsLeft]
  | nextChannel hp hi =>
    rw [stepsLeft_at hp]
    show 10 * (7 - s.i) + 3 + 4 * 1 + 5 < 10 * (8 - s.i) + 3
    omega
  | codeExtracted hp =>
    rw [stepsLeft_at hp, stepsLeft_codeWord]
    exact Nat.lt_succ_self _
  | unipolarConverted hp | bipolarConverted hp =>
    obtain ⟨-, hk, -⟩ := hs.pointOk_at hp
    rw [stepsLeft_at hp]
    exact Nat.sub_lt (Nat.lt_add_left _ (Nat.mul_pos four_pos hk)) one_pos
  | sendFailed hp =>
    rw [stepsLeft_at hp]
    show 10 * (7 - s.i) + 3 + 1 < 10 * (7 - s.i) + 3 + 4 * max s.call.repeatCount 1 + 3
    omega
  | readsDone hp =>
    rw [stepsLeft_at hp]
    show 10 * (7 - s.i) + 3 + 1 < 10 * (7 - s.i) + 3 + 4 * s.k + 2
    omega
  | readCounted hp =>
    obtain ⟨-, hk : 1 ≤ s.k, -⟩ := hs.pointOk_at hp
    rw [stepsLeft_at hp]
    show 10 * (7 - s.i) + 3 + 4 * (s.k - 1) + 2 < 10 * (7 - s.i) + 3 + 4 * s.k - 1
    omega
  | reported hp =>
    rw [stepsLeft_at hp]
    show 10 * (8 - (s.i + 1)) + 3 < 10 * (7 - s.i) + 3 + 1
    omega
  | directRests hp hc => exact absurd (by simpa only [isOver, hp] using hc) hover
  | stays hp => obtain hp | hp := hp <;> exact absurd (by simp only [isOver, hp]) hover

end

/-- Settles O54. -/
theorem answeredStepsApproachTheEnd : Obligations.AnsweredStepsApproachTheEnd := by
  intro s hs hover ha
  obtain ⟨t, ht⟩ := hs.exists_step ha
  exact ⟨t, ht, (step_transition ht).stepsLeft_lt hs hover ha⟩

/-! ### The end of a run -/

/-- A run that is not running any more has ended: at every other control location the status is Running (R33, R144). -/
theorem sequenceInv.point_eq_ended {s : State} (hs : sequenceInv s) (h : s.status ≠ .running) : s.point = .ended := by
  cases hp : s.point with
  | ended => rfl
  | openBus | bindPeer | sampleEntry =>
    obtain ⟨-, hrun, -⟩ := hs.pointOk_at hp
    exact absurd hrun h
  | loopHead | releasing | released =>
    obtain ⟨-, hrun⟩ := hs.pointOk_at hp
    exact absurd hrun h
  | sending =>
    obtain ⟨⟨-, hrun, -⟩, -⟩ := hs.pointOk_at hp
    exact absurd hrun h
  | readLoop | converted =>
    obtain ⟨⟨⟨-, hrun, -⟩, -⟩, -⟩ := hs.pointOk_at hp
    exact absurd hrun h
  | word w =>
    cases w with
    | cmd8 w =>
      obtain ⟨⟨-, hrun, -⟩, -⟩ := hs.pointOk_at hp
      exact absurd hrun h
    | frame16 w | code12u w | code12b w =>
      obtain ⟨⟨⟨-, hrun, -⟩, -⟩, -⟩ := hs.pointOk_at hp
      exact absurd hrun h
  | returned r =>
    cases r with
    | ok v | err kind =>
      obtain ⟨⟨-, hrun, -⟩, -⟩ := hs.pointOk_at hp
      exact absurd hrun h
  | closing failure =>
    cases failure with
    | none =>
      obtain ⟨-, hrun, -⟩ := hs.pointOk_at hp
      exact absurd hrun h
    | some kind =>
      obtain ⟨-, hrun⟩ := hs.pointOk_at hp
      exact absurd hrun h

/-- Settles O55. -/
theorem endedRunStaysEnded : Obligations.EndedRunStaysEnded := by
  intro s hs h
  have hp := hs.point_eq_ended h
  obtain ⟨hh, -⟩ := hs.pointOk_at hp
  exact ⟨hp, hh, (Transition.stays (.inr hp)).step_eq hp trivial⟩

/-- Settles O56: only a sweep's return of a voltage reports, and only that and BIND write the channel index. -/
theorem reportsAreOnlyAppended : Obligations.ReportsAreOnlyAppended := by
  intro s t h
  cases step_transition h with
  | reported hp hc => exact .inr ⟨_, hp, hc, rfl, rfl⟩
  | bound hp => exact .inl ⟨rfl, .inr ⟨hp, rfl⟩⟩
  | _ => exact .inl ⟨rfl, .inl rfl⟩

/-! ### The direct calls of the outside -/

/-- Where the sequence is at rest (R182, R188). -/
theorem atRest_iff {s : State} : atRest s = true ↔ s.pending = none ∧
    (s.point = .loopHead ∧ s.i = 0 ∨ (∃ v, s.point = .returned (.ok v)) ∧ s.call.caller = .direct) := by
  unfold atRest
  split
  next hp => simp [hp]
  next hp => simp [hp]
  next hloop hret =>
    have hloop : s.point ≠ .loopHead := hloop
    have hret : ∀ v, s.point ≠ .returned (.ok v) := hret
    simp [hloop, hret]

/-- At rest the run goes on, and no call is pending. -/
theorem sequenceInv.of_resting {s : State} (hs : sequenceInv s)
    (h : s.point = .loopHead ∧ s.i = 0 ∨ (∃ v, s.point = .returned (.ok v)) ∧ s.call.caller = .direct) :
    s.pending = none ∧ s.status = .running := by
  obtain ⟨hp, -⟩ | ⟨⟨v, hp⟩, -⟩ := h
  · obtain ⟨-, hrun⟩ := hs.pointOk_at hp
    exact ⟨hs.pending_eq_none hp rfl, hrun⟩
  · obtain ⟨⟨-, hrun, -⟩, -⟩ := hs.pointOk_at hp
    exact ⟨hs.pending_eq_none hp rfl, hrun⟩

/-- Settles O60. -/
theorem directCallsKeepTheInvariant : Obligations.DirectCallsKeepTheInvariant := by
  intro s chan repeatCount mode hs hb
  refine ⟨fun h => ?_, fun h => ?_⟩
  · obtain ⟨hn, hrun⟩ := hs.of_resting h
    have hrest : atRest s = true := atRest_iff.2 ⟨hn, h⟩
    have hheld : s.handle ≠ .closed := hb.trans_ne nofun
    refine ⟨⟨_, directCall_of_atRest hb hrest, ?_, rfl⟩, s.goto .releasing, s.close.goto .released,
      directCall_of_atRest hb hrest, ?_, ?_, rfl, rfl, rfl, rfl, rfl, rfl⟩
    · exact sequenceInv_of_not_pending hs.records hn ⟨hb, hrun, nofun⟩
    · exact sequenceInv_of_not_pending hs.records hn ⟨hheld, hrun⟩
    · exact (Transition.released (s := s.goto _) rfl hheld).step_eq rfl trivial
  · have hrest : atRest s = false := Bool.eq_false_iff.2 fun hr => h (atRest_iff.1 hr).2
    exact ⟨directCall_of_not_atRest hb hrest, directCall_of_not_atRest hb hrest⟩

end Sys2Proof.Machine
end

section
/-! SUPPORT. Runs of the sequence: one SAMPLE under any oracle that answers it (43_sampling_session rules R135 to R139), and
what it returns. -/

namespace Sys2Proof.Machine

/-! ### Runs -/

/-- The sequence goes from `s` to `t`, in some number of steps. -/
abbrev Reaches : State → State → Prop := Relation.ReflTransGen fun s t => step s = .next t

/-- A run whose first step leads to `t` goes on from `t`. -/
theorem run_succ_of_step {M : Host.Core} {s t : M.State} (h : M.step s = .next t) (n : Nat) :
    M.run (n + 1) s = M.run n t := by
  rw [Host.Core.run, h]

/-- What is reached is reached by a run of the machine. -/
theorem Reaches.exists_run {s t : State} (h : Reaches s t) : ∃ n, core.run n s = .next t := by
  induction h using Relation.ReflTransGen.head_induction_on with
  | refl => exact ⟨0, rfl⟩
  | head hstep _ ih =>
    obtain ⟨n, hrun⟩ := ih
    exact ⟨n + 1, (run_succ_of_step hstep n).trans hrun⟩

/-! ### The voltage of a frame -/

/-- The datum of a frame's voltage, in the format of `x` (R13, R135): VREF is finite, so its sign and magnitude are packed
and no NaN is drawn. -/
def frameDatum (x : Fp) (mode : PolarityMode) (frame : Byte × Byte) : Fp :=
  fpPack (vrefLike x) (codeNeg mode (extractCode frame.1 frame.2) ^^ fpNeg (vrefLike x))
    (codeMag (vrefLike x) mode (extractCode frame.1 frame.2))

section
variable (x : Fp) (mode : PolarityMode) (frame : Byte × Byte)

/-- VREF is finite in both formats (R11). -/
theorem isFinite_vrefLike : isFinite (vrefLike x) := by
  cases x with
  | b32 w => exact (by decide +kernel : isFinite Config.vref32)
  | b64 w => exact (by decide +kernel : isFinite Config.vref64)

/-- A frame under VREF gives a finite voltage, in sign and magnitude. -/
theorem frameVolt_eq_val : frameVolt x mode frame =
    .val (codeNeg mode (extractCode frame.1 frame.2) ^^ fpNeg (vrefLike x))
      (codeMag (vrefLike x) mode (extractCode frame.1 frame.2)) := by
  rw [frameVolt, ← vrefLike_format, convertCode_finite (isFinite_vrefLike x)]

@[simp] theorem frameDatum_format : (frameDatum x mode frame).format = x.format := by simp [frameDatum]

/-- The datum of a frame has the value of its voltage. -/
@[simp] theorem fpVal_frameDatum : fpVal (frameDatum x mode frame) = frameVolt x mode frame := by
  have hfin := isFinite_vrefLike x
  rw [frameVolt_eq_val, frameDatum, fpVal_fpPack ((codeMag_le hfin _ _).trans hfin.le)]

/-- TOVOLT of a frame's code under VREF keeps the frame's datum and draws nothing (R135). -/
theorem takeVolt_frame {s : State} (hx : s.vref = vrefLike x) :
    s.takeVolt (convertCode s.vref.format mode (extractCode frame.1 frame.2) (fpVal s.vref)) =
      { s with last := some (frameDatum x mode frame) } := by
  rw [hx, convertCode_finite (isFinite_vrefLike x)]
  simp [State.takeVolt, voltDatum, frameDatum, hx]

end

/-! ### One SAMPLE -/

/-- The state of a SAMPLE called in `s` when SEND is next: the command byte is driven, and VREF (R91, R139). -/
def State.atSend (s : State) : State :=
  (s.driveVref.setCmd (encodeCommand s.params s.call.chan s.call.mode)).goto .sending

/-- The state of a SAMPLE called in `s` at the head of its loop, when its command byte has been sent, `frames` have been
read and converted, and `k` reads are still to do; `sends` and `recvs` are the answers still to come (R135). -/
def State.afterReads (s : State) (sends : List SendAnswer) (frames : List (Byte × Byte)) (recvs : List RecvAnswer)
    (k : Nat) : State :=
  { s.atSend with
    k := k
    last := frames.getLast?.map (frameDatum s.vref s.call.mode)
    oracle := { s.oracle with sends := sends, recvs := recvs }
    trace := s.trace ++ .send [encodeCommand s.params s.call.chan s.call.mode] :: List.replicate frames.length (.recv 2)
    point := .readLoop }

section
variable {s : State} {sends : List SendAnswer} {frames : List (Byte × Byte)} {recvs : List RecvAnswer} {k : Nat}

/-- The voltage kept is that of the last frame (R136). -/
theorem afterReads_last (sends : List SendAnswer) (recvs : List RecvAnswer) (k : Nat) {frame : Byte × Byte}
    (hlast : frames.getLast? = some frame) :
    (s.afterReads sends frames recvs k).last = some (frameDatum s.vref s.call.mode frame) := by
  rw [State.afterReads, hlast, Option.map_some]

/-- A successful read's answer is its frame (R45). -/
@[simp] theorem readBytes_goodRead (frame : Byte × Byte) : readBytes (goodRead frame) = some frame := rfl

/-- The two bytes of a frame on its port are the two received, in their order (R48, R67). -/
theorem extractCode_frameOf (b0 b1 : Byte) :
    extractCode ((frameOf b0 b1).extractLsb' 8 8) ((frameOf b0 b1).extractLsb' 0 8) = extractCode b0 b1 := by
  rw [frameOf_eq_append, frame_first, frame_second]

/-- The step on which the code on the converter's port is converted, in either mode (R101). -/
theorem step_codeWord (s : State) (mode : PolarityMode) (code : Code) :
    step (s.goto (.word (codeWord mode code))) =
      .next ((s.takeVolt (convertCode s.vref.format mode code (fpVal s.vref))).goto .converted) := by
  cases mode <;> rfl

/-- From the frame on its port: EXTRACT, TOVOLT under VREF, and the count of the read (R135, R138, R139). -/
theorem reaches_converted {x : Fp} (hx : s.vref = vrefLike x) (frame : Byte × Byte) :
    Reaches (s.goto (.word (.frame16 (frameOf frame.1 frame.2))))
      { s with last := some (frameDatum x (modeOf s.cmd) frame), k := s.k - 1, point := .readLoop } := by
  have hextracted := (Transition.codeExtracted (s := s.goto (.word (.frame16 (frameOf frame.1 frame.2)))) rfl).step_eq
    rfl trivial
  have hconverted := step_codeWord s (modeOf s.cmd) (extractCode frame.1 frame.2)
  have hcounted := (Transition.readCounted
    (s := { s with last := some (frameDatum x (modeOf s.cmd) frame), point := .converted }) rfl).step_eq rfl trivial
  rw [extractCode_frameOf] at hextracted
  rw [takeVolt_frame x _ frame hx] at hconverted
  exact .head hextracted (.head hconverted (.single hcounted))

/-- A good read takes SAMPLE once round its loop. -/
theorem reaches_readLoop {x : Fp} {frame : Byte × Byte} (hp : s.point = .readLoop) (hk : 0 < s.k)
    (hh : s.handle = .bound) (hn : s.pending = none) (ho : s.oracle.recvs = goodRead frame :: recvs)
    (hx : s.vref = vrefLike x) :
    Reaches s { s with
      k := s.k - 1
      last := some (frameDatum x (modeOf s.cmd) frame)
      oracle := { s.oracle with recvs := recvs }
      trace := s.trace ++ [.recv 2]
      point := .readLoop } := by
  have hreceived := (Transition.received hp hk hh ho (readBytes_goodRead frame)).step_eq hp fun _ => ho.trans_ne nofun
  rw [State.issue_answered hn] at hreceived
  refine .head hreceived (reaches_converted ?_ frame)
  exact hx

section
variable (hh : s.handle = .bound) (hlegal : s.params.Legal)
include hh hlegal

/-- From its entry a SAMPLE drives its command word, which is run, and comes to SEND. -/
theorem reaches_atSend (hp : s.point = .sampleEntry) : Reaches s s.atSend := by
  obtain ⟨i, hd⟩ := exists_decodeCommand_encodeCommand hlegal s.call.chan s.call.mode
  exact .head ((Transition.sampleEntered hp hh).step_eq hp trivial)
    (.single ((Transition.commandDriven (s := s.driveVref.goto _) rfl hd).step_eq rfl trivial))

variable (hn : s.pending = none)
include hn

/-- With its write accepted a SAMPLE comes to its loop, no frame read (R135, R137). -/
theorem reaches_afterReads_nil {a : SendAnswer} (hp : s.point = .sampleEntry) (ho : s.oracle.sends = a :: sends)
    (ha : writeSucceeded a = true) :
    Reaches s (s.afterReads sends [] s.oracle.recvs (max s.call.repeatCount 1)) := by
  obtain ⟨i, hd⟩ := exists_decodeCommand_encodeCommand hlegal s.call.chan s.call.mode
  have hsent := (Transition.sent (s := s.atSend) rfl hh hd ho ha).step_eq rfl (ho.trans_ne nofun)
  rw [State.issue_answered (s := s.atSend) hn] at hsent
  exact (reaches_atSend hh hlegal hp).tail hsent

/-- A good read takes a SAMPLE once round its loop. -/
theorem reaches_afterReads_concat (frame : Byte × Byte) :
    Reaches (s.afterReads sends frames (goodRead frame :: recvs) (k + 1))
      (s.afterReads sends (frames ++ [frame]) recvs k) := by
  have hmode := modeOf_encodeCommand hlegal s.call.chan s.call.mode
  have hread := reaches_readLoop (s := s.afterReads sends frames (goodRead frame :: recvs) (k + 1)) rfl
    (Nat.succ_pos k) hh hn rfl rfl
  simpa [State.afterReads, State.atSend, hmode, List.replicate_succ'] using hread

/-- Good reads take a SAMPLE round its loop, one frame each. -/
theorem reaches_afterReads (frames : List (Byte × Byte)) :
    Reaches (s.afterReads sends [] (frames.map goodRead ++ recvs) (frames.length + k))
      (s.afterReads sends frames recvs k) := by
  induction frames using List.reverseRecOn generalizing recvs k with
  | nil => simpa using .refl
  | append_singleton frames frame ih =>
    have hfirst := ih (recvs := goodRead frame :: recvs) (k := k + 1)
    simpa [Nat.add_assoc, Nat.add_comm 1] using hfirst.trans (reaches_afterReads_concat hh hlegal hn frame)

/-- With its write accepted and `frames` read, a SAMPLE stands at the head of its loop, the rest of its reads to do. -/
theorem reaches_afterReads_of_frames {a : SendAnswer} (hp : s.point = .sampleEntry) (ho : s.oracle.sends = a :: sends)
    (ha : writeSucceeded a = true) (hr : s.oracle.recvs = frames.map goodRead ++ recvs)
    (hlen : frames.length + k = max s.call.repeatCount 1) : Reaches s (s.afterReads sends frames recvs k) := by
  have hsent := reaches_afterReads_nil hh hlegal hn hp ho ha
  rw [hr, ← hlen] at hsent
  exact hsent.trans (reaches_afterReads hh hlegal hn frames)

/-- With all its reads answered by frames, a SAMPLE returns the datum of the last (R136). -/
theorem reaches_sampled {a : SendAnswer} {frame : Byte × Byte} (hp : s.point = .sampleEntry)
    (ho : s.oracle.sends = a :: sends) (ha : writeSucceeded a = true) (hr : s.oracle.recvs = frames.map goodRead ++ recvs)
    (hlen : frames.length = max s.call.repeatCount 1) (hlast : frames.getLast? = some frame) :
    Reaches s ((s.afterReads sends frames recvs 0).goto (.returned (.ok (frameDatum s.vref s.call.mode frame)))) := by
  have hdone := (Transition.readsDone (s := s.afterReads sends frames recvs 0) rfl (Nat.lt_irrefl 0)
    (afterReads_last _ _ _ hlast)).step_eq rfl nofun
  exact (reaches_afterReads_of_frames hh hlegal hn hp ho ha hr hlen).tail hdone

/-- A read that fails ends the SAMPLE, whatever frames were read before it (R164, R165). -/
theorem reaches_readFailed {a : SendAnswer} {bad : RecvAnswer} (hp : s.point = .sampleEntry)
    (ho : s.oracle.sends = a :: sends) (ha : writeSucceeded a = true)
    (hr : s.oracle.recvs = frames.map goodRead ++ bad :: recvs) (hlen : frames.length < max s.call.repeatCount 1)
    (hbad : readBytes bad = none) :
    ∃ k, Reaches s { s.afterReads sends frames recvs k with
      trace := s.trace ++ .send [encodeCommand s.params s.call.chan s.call.mode] ::
        List.replicate (frames.length + 1) (.recv 2)
      last := none
      point := .returned (.err .readFailed) } := by
  obtain ⟨k, hk⟩ := Nat.exists_eq_add_of_lt hlen
  have hfailed := (Transition.recvFailed (s := s.afterReads sends frames (bad :: recvs) (k + 1)) rfl (Nat.succ_pos k)
    hh rfl hbad).step_eq rfl fun _ => nofun
  refine ⟨k + 1, (reaches_afterReads_of_frames (k := k + 1) hh hlegal hn hp ho ha hr hk.symm).tail ?_⟩
  rw [hfailed, State.issue_answered (s := s.afterReads _ _ _ _) hn]
  simp [State.afterReads, State.dropReads, State.raise, List.replicate_succ']

/-- A write that fails ends the SAMPLE before any read (R163, R165). -/
theorem reaches_writeFailed {bad : SendAnswer} (hp : s.point = .sampleEntry)
    (ho : s.oracle.sends = bad :: sends) (hbad : writeSucceeded bad = false) :
    Reaches s { s.atSend with
      trace := s.trace ++ [.send [encodeCommand s.params s.call.chan s.call.mode]]
      oracle := { s.oracle with sends := sends }
      point := .returned (.err .writeFailed) } := by
  obtain ⟨i, hd⟩ := exists_decodeCommand_encodeCommand hlegal s.call.chan s.call.mode
  have hfailed := (Transition.sendFailed (s := s.atSend) rfl hh hd ho (Bool.eq_false_iff.1 hbad)).step_eq rfl
    (ho.trans_ne nofun)
  rw [State.issue_answered (s := s.atSend) hn] at hfailed
  exact (reaches_atSend hh hlegal hp).tail hfailed

end

end

/-- Settles O46. -/
theorem sampleReturnsTheLastVoltage : Obligations.SampleReturnsTheLastVoltage := by
  intro s accepted sends frames frame recvs hp hh hn hlegal ho hr hlen hlast
  have ha := writeSucceeded_accepted_succ accepted
  obtain ⟨n, hrun⟩ := (reaches_sampled hh hlegal hn hp ho ha hr hlen hlast).exists_run
  exact ⟨n, _, _, hrun, rfl, frameDatum_format _ _ _, fpVal_frameDatum _ _ _, afterReads_last sends recvs 0 hlast,
    rfl, rfl, rfl, rfl, hn, hh, rfl, rfl, rfl, rfl⟩

/-- Settles O47. -/
theorem sampleFailsAtAFailedRead : Obligations.SampleFailsAtAFailedRead := by
  intro s accepted sends frames bad recvs hp hh hn hlegal ho hr hlen hbad
  have ha := writeSucceeded_accepted_succ accepted
  obtain ⟨k, hfailed⟩ := reaches_readFailed hh hlegal hn hp ho ha hr hlen hbad
  obtain ⟨n, hrun⟩ := hfailed.exists_run
  exact ⟨n, _, hrun, rfl, rfl, rfl, rfl, hn, hh, rfl, rfl, rfl, rfl⟩

end Sys2Proof.Machine
end

section
/-! SUPPORT. Whole runs (43_sampling_session rules R140 to R146): the sweep channel by channel, and the three ways in which a
run that is bound ends. -/

namespace Sys2Proof.Machine

/-- The sweep begun in `s` has come to `t`: the channels below `frames.length` have been sampled, each with its frame of
`frames`, and reported; the head of the loop is next, and `sends` and `recvs` are the answers still to come (R140, R143). -/
structure AtChannel (s : State) (frames : List (Byte × Byte)) (sends : List SendAnswer) (recvs : List RecvAnswer)
    (t : State) : Prop where
  reaches : Reaches s t
  point : t.point = .loopHead
  handle : t.handle = .bound
  pending : t.pending = none
  i : t.i = frames.length
  reports : t.reports = (List.range frames.length).zip (frames.map (frameDatum s.vref .unipolar))
  trace : t.trace = s.trace ++ [.openBus s.params.busPath, .bind Config.peer] ++
    (List.range frames.length).flatMap (channelCalls s.params)
  sends : t.oracle.sends = sends
  recvs : t.oracle.recvs = recvs

section
variable {s t : State} {sends : List SendAnswer} {frames : List (Byte × Byte)} {recvs : List RecvAnswer}

/-- No run writes a parameter, or changes the format of the reference (R13, R53). -/
theorem Reaches.params_vref_eq (h : Reaches s t) : t.params = s.params ∧ t.vref.format = s.vref.format := by
  induction h with
  | refl => exact ⟨rfl, rfl⟩
  | tail _ hstep ih =>
    obtain ⟨hparams, hformat⟩ := ih
    obtain ⟨hparams', hformat'⟩ := parametersAreNeverWritten _ _ hstep
    exact ⟨hparams'.trans hparams, hformat'.trans hformat⟩

/-- The datum of a frame takes from the reference its format only. -/
theorem frameDatum_congr {x y : Fp} (h : x.format = y.format) : frameDatum x = frameDatum y := by
  have hvref : vrefLike x = vrefLike y := by
    match x, y, h with
    | .b32 _, .b32 _, _ => rfl
    | .b64 _, .b64 _, _ => rfl
  unfold frameDatum
  rw [hvref]

/-- OPEN and BIND answered well bring a run to channel 0 (R130, R131). -/
theorem exists_atChannel_zero {opens : List OpenAnswer} {binds : List BindAnswer} (hs : atStart s)
    (hopen : s.oracle.opens = .handle :: opens) (hbind : s.oracle.binds = .done :: binds) :
    ∃ t, AtChannel s [] s.oracle.sends s.oracle.recvs t := by
  obtain ⟨hp, hh, -, hreports, hn⟩ := hs
  obtain ⟨u, hopened, htrace, horacle, hnu, hreportsu, -, hhu, hpu, -⟩ := openOutcomes s .handle opens hp hh hn hopen
  have hbindu : u.oracle.binds = .done :: binds := by rw [horacle, hbind]
  obtain ⟨t, hbound, htrace', horacle', hnt, hreportst, hht, hi, hpt, -⟩ :=
    bindOutcomes u .done binds hpu hhu hnu hbindu
  refine ⟨t, .head hopened (.single hbound), hpt, hht, hnt, hi, hreportst.trans (hreportsu.trans hreports), ?_, ?_, ?_⟩
  · simp [htrace', htrace, Config.peer]
  · rw [horacle', horacle]
  · rw [horacle', horacle]

/-- While a channel is left, the sweep calls SAMPLE for it (R140). -/
theorem AtChannel.reaches_sampleEntry (ht : AtChannel s frames sends recvs t) (hlen : frames.length ≤ 7) :
    Reaches s (t.callChannel.goto .sampleEntry) :=
  ht.reaches.tail ((Transition.nextChannel ht.point (ht.i.trans_le hlen)).step_eq ht.point trivial)

/-- One channel of the sweep with its calls answered well (R140, R143). -/
theorem AtChannel.next {a : SendAnswer} {frame : Byte × Byte}
    (ht : AtChannel s frames (a :: sends) (goodRead frame :: recvs) t) (hlegal : s.params.Legal)
    (hlen : frames.length ≤ 7) (ha : writeSucceeded a = true) :
    ∃ u, AtChannel s (frames ++ [frame]) sends recvs u := by
  obtain ⟨hparams, hformat⟩ := ht.reaches.params_vref_eq
  have hsampled := reaches_sampled (s := t.callChannel.goto .sampleEntry) (frames := [frame]) (recvs := recvs) ht.handle
    (hparams ▸ hlegal) ht.pending rfl ht.sends ha ht.recvs rfl rfl
  have hreported := (Transition.reported (s := (t.callChannel.afterReads sends [frame] recvs 0).goto
    (.returned (.ok (frameDatum t.vref .unipolar frame)))) rfl rfl).step_eq rfl trivial
  refine ⟨_, ((ht.reaches_sampleEntry hlen).trans hsampled).tail hreported, rfl, ht.handle, ht.pending, ?_, ?_, ?_, rfl,
    rfl⟩
  · simp [State.afterReads, State.atSend, ht.i]
  · simp [State.afterReads, State.atSend, ht.i, ht.reports, frameDatum_congr hformat, List.range_succ, List.zip_append]
  · simp [State.afterReads, State.atSend, ht.i, ht.trace, hparams, List.range_succ, channelCalls, sweepCall]

/-- Good answers to writes, one more than `n`, are `n` of them and a last. -/
theorem exists_answers_concat {answers : List SendAnswer} {n : Nat} (hlen : answers.length = n + 1)
    (ha : ∀ a ∈ answers, writeSucceeded a = true) :
    ∃ first a, answers = first ++ [a] ∧ first.length = n ∧ (∀ b ∈ first, writeSucceeded b = true) ∧
      writeSucceeded a = true := by
  obtain ⟨first, a, rfl⟩ := (List.eq_nil_or_concat' answers).resolve_left (List.ne_nil_of_length_eq_add_one hlen)
  obtain ⟨hfirst, hlast⟩ := List.forall_mem_append.1 ha
  exact ⟨first, a, rfl, by simpa using hlen, hfirst, hlast a (List.mem_singleton_self a)⟩

/-- A sweep whose writes are accepted and whose reads are answered by `frames` comes to the channel after the last. -/
theorem exists_atChannel {opens : List OpenAnswer} {binds : List BindAnswer} {answers : List SendAnswer} (hs : atStart s)
    (hlegal : s.params.Legal) (hopen : s.oracle.opens = .handle :: opens) (hbind : s.oracle.binds = .done :: binds)
    (hsends : s.oracle.sends = answers ++ sends) (hrecvs : s.oracle.recvs = frames.map goodRead ++ recvs)
    (hlen : frames.length ≤ 8) (hanswers : answers.length = frames.length)
    (ha : ∀ a ∈ answers, writeSucceeded a = true) :
    ∃ t, AtChannel s frames sends recvs t := by
  induction frames using List.reverseRecOn generalizing answers sends recvs with
  | nil =>
    obtain rfl := List.length_eq_zero_iff.1 hanswers
    obtain ⟨t, ht⟩ := exists_atChannel_zero hs hopen hbind
    exact ⟨t, by rwa [hsends, hrecvs] at ht⟩
  | append_singleton frames frame ih =>
    rw [List.length_append] at hlen hanswers
    obtain ⟨first, a, rfl, hfirst, hgood, hlast⟩ := exists_answers_concat hanswers ha
    obtain ⟨t, ht⟩ := ih (sends := a :: sends) (recvs := goodRead frame :: recvs) (by simpa using hsends)
      (by simpa using hrecvs) (Nat.le_of_succ_le hlen) hfirst hgood
    exact ht.next hlegal (Nat.le_of_succ_le_succ hlen) hlast

/-! ### The three ends -/

/-- After channel 7 CLOSE follows, and the run is Done (R140, R144). -/
theorem AtChannel.reaches_done (ht : AtChannel s frames sends recvs t) (hlen : frames.length = 8) :
    Reaches s (t.close.finish .done) := by
  have hi : ¬ t.i ≤ 7 := by rw [ht.i, hlen]; decide
  have hdone := (Transition.sweepDone ht.point hi).step_eq ht.point trivial
  exact (ht.reaches.tail hdone).tail (step_closing (ht.handle.trans_ne nofun) none)

/-- A SAMPLE that has failed: CLOSE follows, and the run is Failed of its kind (R142). -/
theorem reaches_failed {kind : ErrorKind} (hp : t.point = .returned (.err kind)) (hh : t.handle = .bound) :
    Reaches t (t.close.finish (.failed kind)) := by
  have hclosing := (Transition.sampleFailed hp).step_eq hp trivial
  exact .head hclosing (.single (step_closing (hh.trans_ne nofun) (some kind)))

/-- The channels reported, each with the value of its voltage (R143). -/
theorem AtChannel.map_reports (ht : AtChannel s frames sends recvs t) :
    t.reports.map (fun r => (r.1, fpVal r.2)) =
      (List.range frames.length).zip (frames.map (frameVolt s.vref .unipolar)) := by
  rw [ht.reports, List.zip_map_right, List.zip_map_right, List.map_map]
  exact List.map_congr_left fun r _ => Prod.ext rfl (fpVal_frameDatum _ _ _)

/-- Each voltage reported has the format of the reference (R13). -/
theorem AtChannel.reports_format (ht : AtChannel s frames sends recvs t) :
    ∀ r ∈ t.reports, r.2.format = s.vref.format := by
  intro r hr
  rw [ht.reports] at hr
  obtain ⟨frame, -, hdatum⟩ := List.mem_map.1 (List.of_mem_zip hr).2
  rw [← hdatum, frameDatum_format]

/-- A read that fails at the sweep's channel, after its command byte. -/
theorem AtChannel.exists_readFailed {a : SendAnswer} {bad : RecvAnswer}
    (ht : AtChannel s frames (a :: sends) (bad :: recvs) t) (hlegal : s.params.Legal)
    (hlen : frames.length ≤ 7) (ha : writeSucceeded a = true) (hbad : readBytes bad = none) :
    ∃ u, Reaches s u ∧ u.point = .returned (.err .readFailed) ∧ u.handle = .bound ∧ u.i = t.i ∧ u.reports = t.reports ∧
      u.trace = t.trace ++ channelCalls s.params frames.length := by
  obtain ⟨hparams, -⟩ := ht.reaches.params_vref_eq
  obtain ⟨k, hfailed⟩ := reaches_readFailed (s := t.callChannel.goto .sampleEntry) (frames := []) (recvs := recvs)
    ht.handle (hparams ▸ hlegal) ht.pending rfl ht.sends ha ht.recvs Nat.one_pos hbad
  refine ⟨_, (ht.reaches_sampleEntry hlen).trans hfailed, rfl, ht.handle, rfl, rfl, ?_⟩
  simp [channelCalls, sweepCall, hparams, ht.i]

/-- A write that fails at the sweep's channel: no read follows. -/
theorem AtChannel.exists_writeFailed {bad : SendAnswer} (ht : AtChannel s frames (bad :: sends) recvs t)
    (hlegal : s.params.Legal) (hlen : frames.length ≤ 7) (hbad : writeSucceeded bad = false) :
    ∃ u, Reaches s u ∧ u.point = .returned (.err .writeFailed) ∧ u.handle = .bound ∧ u.i = t.i ∧ u.reports = t.reports ∧
      u.trace = t.trace ++ [.send [encodeCommand s.params frames.length .unipolar]] := by
  obtain ⟨hparams, -⟩ := ht.reaches.params_vref_eq
  have hfailed := reaches_writeFailed (s := t.callChannel.goto .sampleEntry) ht.handle (hparams ▸ hlegal) ht.pending rfl
    ht.sends hbad
  refine ⟨_, (ht.reaches_sampleEntry hlen).trans hfailed, rfl, ht.handle, rfl, rfl, ?_⟩
  simp [sweepCall, hparams, ht.i]

end

/-- Settles O48. -/
theorem sweepReportsTheEightChannels : Obligations.SweepReportsTheEightChannels := by
  intro s opens binds answers sends frames recvs hs hlegal hopen hbind hsends hrecvs hanswers ha hlen
  obtain ⟨t, ht⟩ := exists_atChannel hs hlegal hopen hbind hsends hrecvs hlen.le (hanswers.trans hlen.symm) ha
  obtain ⟨n, hrun⟩ := (ht.reaches_done hlen).exists_run
  refine ⟨n, _, hrun, rfl, rfl, rfl, ht.i.trans hlen, hlen ▸ ht.map_reports, ht.reports_format, ?_, rfl⟩
  rw [State.finish_trace, State.close_trace, ht.trace, hlen]

/-- Settles O49. -/
theorem sweepFailsFastOnAFailedRead : Obligations.SweepFailsFastOnAFailedRead := by
  intro s opens binds answers sends frames bad recvs hs hlegal hopen hbind hsends hrecvs hlen hanswers ha hbad
  obtain ⟨first, a, rfl, hfirst, hgood, hlast⟩ := exists_answers_concat hanswers ha
  obtain ⟨t, ht⟩ := exists_atChannel (sends := a :: sends) hs hlegal hopen hbind (by simpa using hsends) hrecvs
    (hlen.trans (by decide)) hfirst hgood
  obtain ⟨u, hu, hp, hh, hi, hreports, htrace⟩ := ht.exists_readFailed hlegal hlen hlast hbad
  obtain ⟨n, hrun⟩ := Reaches.exists_run (hu.trans (reaches_failed hp hh))
  refine ⟨n, _, hrun, rfl, rfl, rfl, hi.trans ht.i, ?_, ?_⟩
  · rw [State.finish_reports, State.close_reports, hreports, ht.map_reports]
  · simp [htrace, ht.trace, List.range_succ]

/-- Settles O50. -/
theorem sweepFailsFastOnAFailedWrite : Obligations.SweepFailsFastOnAFailedWrite := by
  intro s opens binds answers sends bad frames recvs hs hlegal hopen hbind hsends hrecvs hlen hanswers ha hbad
  obtain ⟨t, ht⟩ := exists_atChannel hs hlegal hopen hbind hsends hrecvs (hlen.trans (by decide)) hanswers ha
  obtain ⟨u, hu, hp, hh, hi, hreports, htrace⟩ := ht.exists_writeFailed hlegal hlen hbad
  obtain ⟨n, hrun⟩ := Reaches.exists_run (hu.trans (reaches_failed hp hh))
  refine ⟨n, _, hrun, rfl, rfl, rfl, hi.trans ht.i, ?_, ?_⟩
  · rw [State.finish_reports, State.close_reports, hreports, ht.map_reports]
  · simp [htrace, ht.trace]

end Sys2Proof.Machine
end

section
/-! SUPPORT. Errors (60_exceptions): the refusals of an unbound handle, and that the sequence itself meets neither a refusal
nor a fault. -/

namespace Sys2Proof.Machine

variable {s : State}

/-- Where the sequence makes no call, there is nothing for the oracle to leave unanswered (R54). -/
theorem oracleAnswers_of_nextCall_eq_none (h : nextCall s = none) : oracleAnswers s := by
  unfold oracleAnswers
  split
  next hp => simp only [nextCall, hp, reduceCtorEq] at h
  next hp => simp only [nextCall, hp, reduceCtorEq] at h
  next hp => simp only [nextCall, hp, reduceCtorEq] at h
  next hp =>
    intro hk
    simp only [nextCall, hp, if_pos hk, reduceCtorEq] at h
  next => trivial

/-- Settles O53: a step whose call is answered, or that makes none, is a transition, and one whose call is not answered
issues the call. -/
theorem invariantStatesAlwaysStep : Obligations.InvariantStatesAlwaysStep := by
  intro s hs
  by_cases ha : oracleAnswers s
  · exact hs.exists_step ha
  · obtain ⟨c, hc⟩ := Option.ne_none_iff_exists'.1 (mt oracleAnswers_of_nextCall_eq_none ha)
    exact ⟨s.issue c, hs.step_unanswered hc ha⟩

/-- Settles O40: at each of the three control locations the handle is looked at before anything else is done. -/
theorem unboundHandleIsRefused : Obligations.UnboundHandleIsRefused := by
  intro s hh hpoint
  obtain hp | hp | ⟨hp, hk⟩ := hpoint
  · simp only [step, hp, stepSampleEntry, if_neg hh]
  · simp only [step, hp, stepSend, if_neg hh]
  · simp only [step, hp, stepReadLoop, if_pos hk, recvFrame, if_neg hh]

end Sys2Proof.Machine
end
